-- ==== Sys2Proof/Word.lean ====
section
/-!
DEFINITION. The width of a register (00_scope R4), the signed word a register holds, and the wrap-around law (41_alu R96).

The spec reads a register as a SIGNED INTEGER everywhere (10_state R10, 00_scope section 5.1: sums, comparisons and truncating
divisions of mathematical integers), and leaves its width a parameter with two legal values. A register is therefore an `Int`, narrowed by
`wrap` where the spec narrows it, at a register write; `Fits` says that an integer has XLEN bits (log entry 2).
-/

namespace Sys2Proof

/-- The two legal values of the parameter `XLEN` (00_scope R4). -/
inductive Xlen where
  | w32
  | w64
deriving DecidableEq, Repr

/-- `XLEN` as a number of bits (00_scope R4). -/
def Xlen.bits : Xlen → Nat
  | .w32 => 32
  | .w64 => 64

/-- `2^(XLEN-1)`: values run from `-half` to `half - 1` (00_scope R4). -/
def Xlen.half : Xlen → Int
  | .w32 => 2147483648
  | .w64 => 9223372036854775808

/-- `v` is a value of XLEN bits: `-2^(XLEN-1) <= v <= 2^(XLEN-1) - 1` (00_scope R4). -/
abbrev Fits (x : Xlen) (v : Int) : Prop := -x.half ≤ v ∧ v < x.half

/-- `wrap(v)`: the value of XLEN bits that is congruent to `v` modulo `2^XLEN` (00_scope section 5.1, 41_alu R96). -/
def wrap (x : Xlen) (v : Int) : Int := (v + x.half) % (2 * x.half) - x.half

end Sys2Proof
end

