-- ==== Sys2Proof/Config.lean ====
section
/-!
DEFINITION. What an implementation fixes: the constants of 00_scope R5, R8 and R9, the three open parameters of R4, R6 and R7, and the two
values of a fault record that the spec leaves open (log entries 9 and 10).
-/

namespace Sys2Proof.Config

/-- `STACK_TOP = 4000`, a byte address (00_scope R5). -/
def stackTop : Int := 4000

/-- `LOAD_CURSOR_PC = 100`: the pc after reset (00_scope R8). -/
def loadCursorPc : Int := 100

/-- `ENTRY_PC = 200`: the pc after `start` (00_scope R8). -/
def entryPc : Int := 200

/-- `INSTR_BYTES = 4`: the pc increment, and the stride of a general access (00_scope R9). -/
def instrBytes : Int := 4

/-- `STACK_SLOT_BYTES = 8`: the stride of a stack access (00_scope R9). -/
def stackSlotBytes : Int := 8

/-- The named parameters the spec leaves open: `XLEN` (R4), `STACK_SIZE` (R6) and `MEM_CELLS` (R7). The machine's state carries them,
and no step changes them (log entry 1). -/
structure Params where
  xlen : Xlen
  stackSize : Nat
  memCells : Nat
deriving DecidableEq, Repr

/-- The constraints of 00_scope R6 (`0 <= STACK_SIZE <= STACK_TOP`) and R7 (`MEM_CELLS >= STACK_TOP/8 + 1 = 501`). -/
abbrev Params.Legal (p : Params) : Prop := (p.stackSize : Int) ≤ stackTop ∧ 501 ≤ p.memCells

/-- The spec's defaults: `XLEN = 64`, `STACK_SIZE = 100`, `MEM_CELLS = 1024` (00_scope R4, R6, R7). -/
def Params.default : Params := { xlen := .w64, stackSize := 100, memCells := 1024 }

/-- FREE VALUE (log entry 9). `fault.info` of `UnrecognisedOpcode` for a RECORD with this opcode token: 60_exceptions R132 gives it at
word level only ("the `op` field (word level)"). -/
opaque recordOpcodeInfo : List Char → Int

/-- FREE VALUE (log entry 10). Whether the "position of the token" in `fault.info` (60_exceptions R132, causes 2 and 12) counts the first
operand token as 1 (`true`) or as 0 (`false`): the spec does not say. -/
opaque positionsFromOne : Bool

/-- The position of the operand token at index `i` of the operand list, as `fault.info` gives it (60_exceptions R132). -/
def tokenPosition (i : Nat) : Int := if positionsFromOne then (i : Int) + 1 else (i : Int)

end Sys2Proof.Config
end

