-- ==== Sys2Proof/Syntax.lean ====
section
/-!
DEFINITION. Instructions as the machine executes them (`Instr`: one constructor per row of the opcode table), and the two texts an
instruction cell may hold: a 32-bit word (30_encoding R52) or a record of tokens (R51).
-/

namespace Sys2Proof

/-- A register field: an index 0 to 31 (10_state R11). -/
abbrev RegIdx := Fin 32

/-- Index 28, the stack pointer (10_state R13). -/
abbrev RegIdx.SP : RegIdx := 28
/-- Index 29, the program counter (10_state R14). -/
abbrev RegIdx.PC : RegIdx := 29
/-- Index 30, the link register (10_state R16). -/
abbrev RegIdx.LR : RegIdx := 30
/-- Index 31, the zero register (10_state R15). -/
abbrev RegIdx.XZR : RegIdx := 31

/-- The nine opcodes (30_encoding R56). -/
inductive Opcode where
  | addi | add | subi | b | bl | br | cbz | ldur | stur
deriving DecidableEq, Repr

/-- An instruction as decoded: its opcode and the fields `rd`, `rn`, `rm`, `imm` that opcode has (30_encoding R51, R52; 40_fetch_decode
R74). `imm` is the sign-extended immediate, in bytes, never scaled (R55): at word level 18 bits, at record level any value of XLEN bits,
so it is an integer here. -/
inductive Instr where
  /-- `ADDI Xd, Xn, #c` (41_alu R90). -/
  | addi (rd rn : RegIdx) (imm : Int)
  /-- `ADD Xd, Xn, Xm` (41_alu R91). -/
  | add (rd rn rm : RegIdx)
  /-- `SUBI Xd, Xn, #c` (41_alu R92). -/
  | subi (rd rn : RegIdx) (imm : Int)
  /-- `B #off` (42_branch R100). -/
  | b (imm : Int)
  /-- `BL #off` (42_branch R102). -/
  | bl (imm : Int)
  /-- `BR Xt` (42_branch R103); `rd` is the target register. -/
  | br (rd : RegIdx)
  /-- `CBZ Xt, #off` (42_branch R104); `rd` is the tested register. -/
  | cbz (rd : RegIdx) (imm : Int)
  /-- `LDUR Xd, [Xn, #off]` (43_load_store R110). -/
  | ldur (rd rn : RegIdx) (imm : Int)
  /-- `STUR Xt, [Xn, #off]` (43_load_store R111); `rd` is the stored register. -/
  | stur (rd rn : RegIdx) (imm : Int)
deriving DecidableEq, Repr

/-- The opcode of an instruction. -/
def Instr.opcode : Instr → Opcode
  | .addi _ _ _ => .addi
  | .add _ _ _ => .add
  | .subi _ _ _ => .subi
  | .b _ => .b
  | .bl _ => .bl
  | .br _ => .br
  | .cbz _ _ => .cbz
  | .ldur _ _ _ => .ldur
  | .stur _ _ _ => .stur

/-- The text of one token of a record: its characters. -/
abbrev Text := List Char

/-- An instruction record: the opcode token and the operand tokens (30_encoding R51). The record's address stands in its cell. -/
structure InstrRecord where
  opcode : Text
  operands : List Text
deriving DecidableEq, Repr

/-- What an instruction cell holds beside its address: "the instruction, as a record or as the decided 32-bit word" (20_memory R30). -/
inductive Code where
  | word (w : BitVec 32)
  | record (r : InstrRecord)
deriving DecidableEq, Repr

/-- The causes of `fault.cause` (60_exceptions R132 and R134); `none` stands in the record while nothing has faulted, and for the two
halts (10_state R20). -/
inductive Cause where
  | none
  | unrecognisedOpcode
  | badRegisterToken
  | operandCount
  | reservedFieldNonZero
  | writeToXzr
  | pcMisaligned
  | fetchIndexOutOfRange
  | fetchedDataRecord
  | memIndexOutOfRange
  | loadFromNonData
  | storeToInstruction
  | badImmediateToken
  | outOfWindow
  | spMisaligned
deriving DecidableEq, Repr

/-- The cause code, 8 bits (60_exceptions R132, R134). -/
def Cause.code : Cause → BitVec 8
  | .none => 0
  | .unrecognisedOpcode => 1
  | .badRegisterToken => 2
  | .operandCount => 3
  | .reservedFieldNonZero => 4
  | .writeToXzr => 5
  | .pcMisaligned => 6
  | .fetchIndexOutOfRange => 7
  | .fetchedDataRecord => 8
  | .memIndexOutOfRange => 9
  | .loadFromNonData => 10
  | .storeToInstruction => 11
  | .badImmediateToken => 12
  | .outOfWindow => 16
  | .spMisaligned => 17

end Sys2Proof
end

