-- ==== Sys2Proof/WellFormed.lean ====
section
/-!
DEFINITION. Which instructions have a 32-bit word: the immediate must fit 18 signed bits (30_encoding R55). Register fields need no check:
every 5-bit value is a legal index (R54). At record level any immediate of XLEN bits is legal (R51).
-/

namespace Sys2Proof

/-- The range of an 18-bit signed immediate, `-131072 .. 131071` (30_encoding R55). -/
abbrev Imm18 (c : Int) : Prop := -131072 ≤ c ∧ c ≤ 131071

/-- The instruction's immediate, where its format has one (30_encoding R51, R52). -/
def Instr.imm? : Instr → Option Int
  | .addi _ _ c => some c
  | .add _ _ _ => none
  | .subi _ _ c => some c
  | .b c => some c
  | .bl c => some c
  | .br _ => none
  | .cbz _ c => some c
  | .ldur _ _ c => some c
  | .stur _ _ c => some c

/-- The instruction has a word: its immediate, if it has one, fits 18 signed bits (30_encoding R55, R68). -/
def Instr.wellFormed (i : Instr) : Bool :=
  match i.imm? with
  | some c => decide (Imm18 c)
  | none => true

/-- The instruction may come from a record: its immediate, if it has one, fits XLEN bits (30_encoding R51). -/
def Instr.recordWellFormed (x : Xlen) (i : Instr) : Bool :=
  match i.imm? with
  | some c => decide (Fits x c)
  | none => true

end Sys2Proof
end

