-- ==== Sys2Proof/Decode.lean ====
section
/-!
DEFINITION. The decoder of both program texts (40_fetch_decode R74): the 32-bit word (30_encoding R52 to R61) and the record of tokens
(30_encoding R51, 40_fetch_decode R83). It is total and refuses by the cause the spec names. After it, the encoder `enc` (30_encoding R68).
-/

namespace Sys2Proof

/-- A decode refusal: the cause and the value that `fault.info` gets (60_exceptions R132). -/
structure DecodeFailure where
  cause : Cause
  info : Int
deriving DecidableEq, Repr

/-! ## Int level -/

/-- The opcode of an `op` number (30_encoding R56); 0 and 10 to 15 have none (R60). -/
def opcodeOfNumber (op : BitVec 4) : Option Opcode :=
  match op.toNat with
  | 1 => some .addi
  | 2 => some .add
  | 3 => some .subi
  | 4 => some .b
  | 5 => some .bl
  | 6 => some .br
  | 7 => some .cbz
  | 8 => some .ldur
  | 9 => some .stur
  | _ => none

/-- The `op` number of an opcode (30_encoding R56). -/
def opcodeNumber : Opcode → BitVec 4
  | .addi => 1
  | .add => 2
  | .subi => 3
  | .b => 4
  | .bl => 5
  | .br => 6
  | .cbz => 7
  | .ldur => 8
  | .stur => 9

/-- `op = w[31:28]` (30_encoding R52). -/
def fieldOp (w : BitVec 32) : BitVec 4 := w.extractLsb 31 28

/-- `rd = w[27:23]` (30_encoding R52). -/
def fieldRd (w : BitVec 32) : RegIdx := (w.extractLsb 27 23).toFin

/-- `rn = w[22:18]` (30_encoding R52). -/
def fieldRn (w : BitVec 32) : RegIdx := (w.extractLsb 22 18).toFin

/-- `rm = w[17:13]` (30_encoding R54). -/
def fieldRm (w : BitVec 32) : RegIdx := (w.extractLsb 17 13).toFin

/-- `imm = sext_18(w[17:0])` (30_encoding R55). -/
def fieldImm (w : BitVec 32) : Int := (w.extractLsb 17 0).toInt

/-- The must-be-zero field of the opcode's format is zero (30_encoding R52, R61): format R `w[12:0]`, J `w[27:18]`, X `w[22:0]`,
C `w[22:18]`; format I has none (R53). -/
def reservedZero (op : Opcode) (w : BitVec 32) : Bool :=
  match op with
  | .addi => true
  | .add => decide (w.extractLsb 12 0 = 0)
  | .subi => true
  | .b => decide (w.extractLsb 27 18 = 0)
  | .bl => decide (w.extractLsb 27 18 = 0)
  | .br => decide (w.extractLsb 22 0 = 0)
  | .cbz => decide (w.extractLsb 22 18 = 0)
  | .ldur => true
  | .stur => true

/-- The decoded fields of a word whose opcode is `op` (30_encoding R53, R54, R57 to R59). -/
def instrOfFields (op : Opcode) (w : BitVec 32) : Instr :=
  match op with
  | .addi => .addi (fieldRd w) (fieldRn w) (fieldImm w)
  | .add => .add (fieldRd w) (fieldRn w) (fieldRm w)
  | .subi => .subi (fieldRd w) (fieldRn w) (fieldImm w)
  | .b => .b (fieldImm w)
  | .bl => .bl (fieldImm w)
  | .br => .br (fieldRd w)
  | .cbz => .cbz (fieldRd w) (fieldImm w)
  | .ldur => .ldur (fieldRd w) (fieldRn w) (fieldImm w)
  | .stur => .stur (fieldRd w) (fieldRn w) (fieldImm w)

/-- `dec` at word level, in the two steps of 30_encoding R56: the row by `op` (R60 if none), then the row's zero fields (R61). -/
def decodeWord (w : BitVec 32) : Except DecodeFailure Instr :=
  match opcodeOfNumber (fieldOp w) with
  | none => .error { cause := .unrecognisedOpcode, info := (fieldOp w).toNat }
  | some op =>
    if reservedZero op w then .ok (instrOfFields op w)
    else .error { cause := .reservedFieldNonZero, info := w.toNat }

/-! ## Record level -/

/-- The opcode of a record's opcode token: one of the nine mnemonics, upper case (30_encoding R51). There is no pseudo-instruction:
nothing else is an opcode, and no record stands for another (R67). -/
def opcodeOfText (t : Text) : Option Opcode :=
  if t = ['A', 'D', 'D', 'I'] then some .addi
  else if t = ['A', 'D', 'D'] then some .add
  else if t = ['S', 'U', 'B', 'I'] then some .subi
  else if t = ['B'] then some .b
  else if t = ['B', 'L'] then some .bl
  else if t = ['B', 'R'] then some .br
  else if t = ['C', 'B', 'Z'] then some .cbz
  else if t = ['L', 'D', 'U', 'R'] then some .ldur
  else if t = ['S', 'T', 'U', 'R'] then some .stur
  else none

/-- The value of a decimal digit. -/
def digitOfChar (c : Char) : Option Nat :=
  if '0'.toNat ≤ c.toNat ∧ c.toNat ≤ '9'.toNat then some (c.toNat - '0'.toNat) else none

/-- Reads decimal digits onto the number read so far. -/
def readDigits (acc : Nat) : Text → Option Nat
  | [] => some acc
  | c :: cs =>
    match digitOfChar c with
    | some d => readDigits (10 * acc + d) cs
    | none => none

/-- A decimal numeral without sign: one digit or more (log entry 12). -/
def readNat : Text → Option Nat
  | [] => none
  | c :: cs => readDigits 0 (c :: cs)

/-- "a decimal integer, optionally with a leading `-`" (30_encoding R51). -/
def readInt : Text → Option Int
  | [] => none
  | c :: cs => if c = '-' then (readNat cs).map (fun n => -(n : Int)) else (readNat (c :: cs)).map (fun n => (n : Int))

/-- The one alias function: a register token to its index (10_state R17, 30_encoding R64). -/
def readRegIdx (t : Text) : Option RegIdx :=
  if t = ['S', 'P'] then some .SP
  else if t = ['L', 'R'] then some .LR
  else if t = ['X', 'Z', 'R'] then some .XZR
  else
    match readNat t with
    | some n => if h : n < 32 then some ⟨n, h⟩ else none
    | none => none

/-- The register token at index `pos` of the operand list (40_fetch_decode R83, cause 2). -/
def decodeReg (pos : Nat) (t : Text) : Except DecodeFailure RegIdx :=
  match readRegIdx t with
  | some i => .ok i
  | none => .error { cause := .badRegisterToken, info := Config.tokenPosition pos }

/-- The constant or offset token at index `pos` of the operand list: an integer that fits XLEN bits (40_fetch_decode R83, cause 12). -/
def decodeImm (x : Xlen) (pos : Nat) (t : Text) : Except DecodeFailure Int :=
  match readInt t with
  | some c => if Fits x c then .ok c else .error { cause := .badImmediateToken, info := Config.tokenPosition pos }
  | none => .error { cause := .badImmediateToken, info := Config.tokenPosition pos }

/-- The refusal of an operand list of the wrong length (40_fetch_decode R83, cause 3): `info` is the number of operand tokens found (log
entry 11), in the XLEN bits of the field (10_state R20). -/
def operandCountFailure (x : Xlen) (ts : List Text) : DecodeFailure := { cause := .operandCount, info := wrap x ts.length }

/-- Operands "register, register, constant" (30_encoding R51: ADDI, SUBI, LDUR, STUR), read from the left. -/
def decodeRegRegImm (x : Xlen) (mk : RegIdx → RegIdx → Int → Instr) (ts : List Text) : Except DecodeFailure Instr :=
  match ts with
  | [t0, t1, t2] => do
    let rd ← decodeReg 0 t0
    let rn ← decodeReg 1 t1
    let c ← decodeImm x 2 t2
    .ok (mk rd rn c)
  | _ => .error (operandCountFailure x ts)

/-- Operands "register, register, register" (30_encoding R51: ADD). -/
def decodeRegRegReg (x : Xlen) (mk : RegIdx → RegIdx → RegIdx → Instr) (ts : List Text) : Except DecodeFailure Instr :=
  match ts with
  | [t0, t1, t2] => do
    let rd ← decodeReg 0 t0
    let rn ← decodeReg 1 t1
    let rm ← decodeReg 2 t2
    .ok (mk rd rn rm)
  | _ => .error (operandCountFailure x ts)

/-- Operands "offset" (30_encoding R51: B, BL). -/
def decodeOffset (x : Xlen) (mk : Int → Instr) (ts : List Text) : Except DecodeFailure Instr :=
  match ts with
  | [t0] => do
    let c ← decodeImm x 0 t0
    .ok (mk c)
  | _ => .error (operandCountFailure x ts)

/-- Operands "register" (30_encoding R51: BR). -/
def decodeTarget (x : Xlen) (mk : RegIdx → Instr) (ts : List Text) : Except DecodeFailure Instr :=
  match ts with
  | [t0] => do
    let rd ← decodeReg 0 t0
    .ok (mk rd)
  | _ => .error (operandCountFailure x ts)

/-- Operands "register, offset" (30_encoding R51: CBZ). -/
def decodeRegOffset (x : Xlen) (mk : RegIdx → Int → Instr) (ts : List Text) : Except DecodeFailure Instr :=
  match ts with
  | [t0, t1] => do
    let rd ← decodeReg 0 t0
    let c ← decodeImm x 1 t1
    .ok (mk rd c)
  | _ => .error (operandCountFailure x ts)

/-- The operands of a record whose opcode is `op`, in the order of 30_encoding R51. -/
def decodeOperands (x : Xlen) (op : Opcode) (ts : List Text) : Except DecodeFailure Instr :=
  match op with
  | .addi => decodeRegRegImm x .addi ts
  | .add => decodeRegRegReg x .add ts
  | .subi => decodeRegRegImm x .subi ts
  | .b => decodeOffset x .b ts
  | .bl => decodeOffset x .bl ts
  | .br => decodeTarget x .br ts
  | .cbz => decodeRegOffset x .cbz ts
  | .ldur => decodeRegRegImm x .ldur ts
  | .stur => decodeRegRegImm x .stur ts

/-- Decode at record level: opcode, then operand count, then each token from the left (40_fetch_decode R83). -/
def decodeRecord (x : Xlen) (r : InstrRecord) : Except DecodeFailure Instr :=
  match opcodeOfText r.opcode with
  | none => .error { cause := .unrecognisedOpcode, info := wrap x (Config.recordOpcodeInfo r.opcode) }
  | some op => decodeOperands x op r.operands

/-- Decode the content of an instruction cell, at the level it is written in (40_fetch_decode R74). -/
def decodeCode (x : Xlen) : Code → Except DecodeFailure Instr
  | .word w => decodeWord w
  | .record r => decodeRecord x r

/-! ## The encoder -/

/-- A register index as a 5-bit field (30_encoding R54). -/
def encReg (r : RegIdx) : BitVec 5 := BitVec.ofFin r

/-- `c mod 2^18`, the immediate field (30_encoding R68). -/
def encImm (c : Int) : BitVec 18 := BitVec.ofInt 18 c

/-- Format I (30_encoding R53). -/
def encI (op : Opcode) (rd rn : RegIdx) (c : Int) : BitVec 32 := opcodeNumber op ++ encReg rd ++ encReg rn ++ encImm c

/-- Format R (30_encoding R54). -/
def encR (op : Opcode) (rd rn rm : RegIdx) : BitVec 32 := opcodeNumber op ++ encReg rd ++ encReg rn ++ encReg rm ++ 0#13

/-- Format J (30_encoding R57). -/
def encJ (op : Opcode) (c : Int) : BitVec 32 := opcodeNumber op ++ 0#5 ++ 0#5 ++ encImm c

/-- Format X (30_encoding R58). -/
def encX (op : Opcode) (rd : RegIdx) : BitVec 32 := opcodeNumber op ++ encReg rd ++ 0#5 ++ 0#18

/-- Format C (30_encoding R59). -/
def encC (op : Opcode) (rd : RegIdx) (c : Int) : BitVec 32 := opcodeNumber op ++ encReg rd ++ 0#5 ++ encImm c

/-- `enc`: the word of an instruction (30_encoding R68), meant for a well-formed one. -/
def encode : Instr → BitVec 32
  | .addi rd rn c => encI .addi rd rn c
  | .add rd rn rm => encR .add rd rn rm
  | .subi rd rn c => encI .subi rd rn c
  | .b c => encJ .b c
  | .bl c => encJ .bl c
  | .br rd => encX .br rd
  | .cbz rd c => encC .cbz rd c
  | .ldur rd rn c => encI .ldur rd rn c
  | .stur rd rn c => encI .stur rd rn c

/-- The instruction the decoder reads from the `nbits` bits `w` of a table row. An instruction is one 32-bit word, stored whole in one cell
with no byte order (30_encoding R50, R52; 20_memory R41). -/
def decodeTableWord (nbits w : Nat) : Option Instr :=
  if nbits ≤ 32 then
    match decodeWord (BitVec.ofNat 32 (w % 2 ^ nbits)) with
    | .ok i => some i
    | .error _ => none
  else none

end Sys2Proof
end

