-- ==== Sys2Proof/Machine/State.lean ====
section
/-!
DEFINITION. The state of the block (10_state): the register file, the cell array, `status`, `phase`, the fault record, `sp_mod` and the
latch `last`, and beside them the machine's constant parameters (log entry 1). "There is nothing else" (10_state, opening). And the
state after reset (10_state R26 to R28, 70_reset_and_hazards R160).
-/

namespace Sys2Proof.Machine

/-- The Execution Status (10_state R18, 60_exceptions R130). Every value but `running` is terminal. -/
inductive Status where
  | running
  | haltedPcZero
  | haltedEndOfProgram
  | faultedStackOverflow
  | abortedDecodeError
deriving DecidableEq, Repr

/-- The 3-bit status code (60_exceptions R130, 70_reset_and_hazards R167). -/
def Status.code : Status → BitVec 3
  | .running => 0
  | .haltedPcZero => 1
  | .haltedEndOfProgram => 2
  | .faultedStackOverflow => 3
  | .abortedDecodeError => 4

/-- The phase bit (10_state R19). -/
inductive Phase where
  | load
  | exec
deriving DecidableEq, Repr

/-- The fault record (10_state R20). -/
structure FaultRecord where
  cause : Cause
  addr : Int
  info : Int
deriving DecidableEq, Repr

/-- The record before anything has happened: `(0, 0, 0)` (10_state R28). -/
def FaultRecord.zero : FaultRecord := { cause := .none, addr := 0, info := 0 }

/-- The content of an instruction cell, `Instr(addr, word)` (20_memory R30): the byte address the loader gave it, and its text. -/
structure InstrCell where
  addr : Nat
  code : Code
deriving DecidableEq, Repr

/-- One memory cell (20_memory R30). A data cell's `addr` is a byte address kept for the Reporter only. -/
inductive MemCell where
  | empty
  | instr (c : InstrCell)
  | data (addr : Nat) (value : Int)
deriving DecidableEq, Repr

/-- The cell array, as (cell index, cell) pairs: indices strictly rising, no entry `empty` (`Memory.wf`), and an unlisted cell is `empty`
(10_state R27; log entry 3). -/
abbrev Memory := List (Nat × MemCell)

/-- The complete state of the block (10_state). -/
structure State where
  /-- The constant parameters `XLEN`, `STACK_SIZE`, `MEM_CELLS` (00_scope R4, R6, R7; log entry 1). -/
  params : Config.Params
  /-- The register file `x[0..31]`, with SP, PC, LR and XZR at 28 to 31 (10_state R10). -/
  regs : Vector Int 32
  /-- The cell array (10_state R23, 20_memory R30). -/
  mem : Memory
  /-- The Execution Status (10_state R18). -/
  status : Status
  /-- The phase (10_state R19). -/
  phase : Phase
  /-- The fault record (10_state R20). -/
  fault : FaultRecord
  /-- "flag: SP being modified" in this cycle (10_state R21). -/
  spMod : Bool
  /-- The instruction cell most recently fetched (10_state R22). -/
  last : Option InstrCell
deriving DecidableEq, Repr

/-- There is no such reason. Every fault the spec describes is TAKEN: the step answers a next state whose `status` is terminal and whose
fault record is filled (60_exceptions R137), so nothing stops the model. Safe: no behaviour of the machine is left out. -/
inductive Fault where
deriving DecidableEq, Repr

/-- The reasons for which the model gives an input no meaning. No instruction and no `step` is ever refused; the last four are raised by
`hostEvent` alone, for a host move that "has no move in the model" (70_reset_and_hazards R168). -/
inductive Refusal where
  /-- Kept for an instruction without a meaning, in `exec`'s arms: there is none. Safe. -/
  | notModelled (mnemonic : String)
  /-- A load write outside the `Load` phase, raised by `hostEvent` (R163, R168: "cannot write cells during `Exec`"). Safe: the port does
  not accept it. -/
  | loadOutsideLoadPhase
  /-- A load write to an index outside the array, raised by `hostEvent` (R163: the port "cannot express" it). Safe. -/
  | loadIndexOutOfRange
  /-- A load write of something else than an instruction or a data cell whose value has XLEN bits, raised by `hostEvent` (R163; log
  entry 15). Safe: the port has no such move. -/
  | loadCellNotLoadable
  /-- `start` outside the `Load` phase, raised by `hostEvent` (R164: "accepted once while `phase = Load`"). Safe. -/
  | startOutsideLoadPhase
deriving DecidableEq, Repr

/-- The registers after reset (10_state R26): SP 4000, PC 100, every other one 0. -/
def resetRegs : Vector Int 32 :=
  #v[0, 0, 0, 0, 0, 0, 0, 0, 0, 0, 0, 0, 0, 0, 0, 0, 0, 0, 0, 0, 0, 0, 0, 0, 0, 0, 0, 0, Config.stackTop, Config.loadCursorPc, 0, 0]

/-- The reset of a machine with the parameters `p` (10_state R26 to R28, 70_reset_and_hazards R160). -/
def State.resetWith (p : Config.Params) : State :=
  { params := p, regs := resetRegs, mem := [], status := .running, phase := .load, fault := FaultRecord.zero, spMod := false, last := none }

/-- The machine right after reset, with the spec's default parameters (00_scope R4, R6, R7). -/
def State.reset : State := State.resetWith Config.Params.default

end Sys2Proof.Machine
end

