-- ==== Sys2Proof/Machine/Operands.lean ====
section
/-!
DEFINITION. Operands: reading a register (10_state R11) and the effective cell index of a memory operand (20_memory R33, R34;
43_load_store R113). The machine has no other operand form but the immediate, which decoding yields.
-/

namespace Sys2Proof.Machine

/-- The stored entry `i` of the register file, index 31 included (10_state R10). -/
def storedReg (s : State) (i : RegIdx) : Int := s.regs.get i

/-- `x[i]`: 0 for index 31, the stored entry otherwise (10_state R11, R15). -/
def readReg (s : State) (i : RegIdx) : Int := if i = RegIdx.XZR then 0 else storedReg s i

/-- `pc`, another name of `x[29]` (10_state R14). -/
def pc (s : State) : Int := readReg s .PC

/-- `sp`, another name of `x[28]` (10_state R13). -/
def sp (s : State) : Int := readReg s .SP

/-- `lr`, another name of `x[30]` (10_state R16). -/
def lr (s : State) : Int := readReg s .LR

/-- Division truncating toward zero, as 00_scope section 5.1 defines it for a positive divisor (20_memory R34). -/
def tdiv (a n : Int) : Int := if 0 ≤ a then a / n else -((-a) / n)

/-- The stride of an access whose base field is `rn`: 8 when the base is SP, by its index, and 4 otherwise (20_memory R33). -/
def stride (rn : RegIdx) : Int := if rn = RegIdx.SP then Config.stackSlotBytes else Config.instrBytes

/-- `EA(b, o, n)`: base and offset are divided separately, and the quotients added (20_memory R33). -/
def effIndex (b o n : Int) : Int := tdiv b n + tdiv o n

/-- The effective cell index of the operand `[Xrn, #imm]` (43_load_store R113). -/
def operandIndex (s : State) (rn : RegIdx) (imm : Int) : Int := effIndex (readReg s rn) imm (stride rn)

end Sys2Proof.Machine
end

