-- ==== Sys2Proof/Machine/Ops.lean ====
section
/-!
DEFINITION. The named operations over the cell array and the register file, the access primitives `MemRead` and `MemWrite` (20_memory R36,
R37), and taking an exceptional event (60_exceptions R133, R137): one operation for all of them, since each only writes `status` and
`fault`. There is no return from one (60_exceptions R138): only reset leaves a terminal status.
-/

namespace Sys2Proof.Machine

/-! ## The cell array -/

/-- The canonical form of the cell list: indices strictly rising, no entry that an unlisted cell would read as (log entry 3). -/
abbrev Memory.wf (m : Memory) : Prop := m.Pairwise (fun a b => a.1 < b.1) ∧ ∀ e ∈ m, e.2 ≠ MemCell.empty

/-- `cell[k]`; an unlisted cell is `Empty` (10_state R27). -/
def Memory.read : Memory → Nat → MemCell
  | [], _ => .empty
  | (j, c) :: m, k => if j = k then c else Memory.read m k

/-- An entry for `k` in front of `m`, none where the cell is `Empty`. -/
def Memory.consCell (k : Nat) (c : MemCell) (m : Memory) : Memory := if c = .empty then m else (k, c) :: m

/-- `cell[k] <- c`, keeping the canonical form. -/
def Memory.write : Memory → Nat → MemCell → Memory
  | [], k, c => Memory.consCell k c []
  | (j, d) :: m, k, c =>
    if j < k then (j, d) :: Memory.write m k c
    else if j = k then Memory.consCell k c m
    else Memory.consCell k c ((j, d) :: m)

/-- `for k from lo to hi inclusive: cell[k] <- Empty` (42_branch R102), over the cells that exist (log entry 14). -/
def Memory.clear (m : Memory) (lo hi : Int) : Memory := m.filter (fun e => !(decide (lo ≤ (e.1 : Int)) && decide ((e.1 : Int) ≤ hi)))

/-- The cell at index `k` of the machine's array. -/
def readCell (s : State) (k : Nat) : MemCell := Memory.read s.mem k

/-- `cell[k] <- c`. -/
def writeCell (s : State) (k : Nat) (c : MemCell) : State := { s with mem := Memory.write s.mem k c }

/-- The cells `lo .. hi` become `Empty` (42_branch R102). -/
def clearCells (s : State) (lo hi : Int) : State := { s with mem := Memory.clear s.mem lo hi }

/-- `0 <= k < MEM_CELLS` (20_memory R36, R37; 40_fetch_decode R72). -/
abbrev CellExists (s : State) (k : Int) : Prop := 0 ≤ k ∧ k < (s.params.memCells : Int)

/-- `MemRead` at the effective index `k`: the value, or the cause and `info` of the DecodeError (20_memory R36). -/
def memRead (s : State) (k : Int) : Except (Cause × Int) Int :=
  if CellExists s k then
    match readCell s k.toNat with
    | .data _ v => .ok v
    | .empty => .error (.loadFromNonData, k)
    | .instr _ => .error (.loadFromNonData, k)
  else .error (.memIndexOutOfRange, k)

/-- `MemWrite` of `v` at the effective index `k` of an access of stride `n`: the new state, or the cause and `info` of the DecodeError
(20_memory R37). -/
def memWrite (s : State) (k n : Int) (v : Int) : Except (Cause × Int) State :=
  if CellExists s k then
    match readCell s k.toNat with
    | .instr _ => .error (.storeToInstruction, k)
    | .empty => .ok (writeCell s k.toNat (.data (k * n).toNat v))
    | .data _ _ => .ok (writeCell s k.toNat (.data (k * n).toNat v))
  else .error (.memIndexOutOfRange, k)

/-! ## The register file -/

/-- Stores `v` in entry `i` as it is. -/
def setReg (s : State) (i : RegIdx) (v : Int) : State := { s with regs := s.regs.set i.val v i.isLt }

/-- `x[i] <- v`: stores `wrap(v)` (41_alu R96), and sets `sp_mod` when `i = 28` (10_state R21). A write to index 31 is never performed
(00_scope section 5.2): the handlers fault before reaching it, and entry 31 keeps its value here. -/
def writeReg (s : State) (i : RegIdx) (v : Int) : State :=
  if i = RegIdx.XZR then s
  else if i = RegIdx.SP then { setReg s i (wrap s.params.xlen v) with spMod := true }
  else setReg s i (wrap s.params.xlen v)

/-! ## Exceptional events -/

/-- Taking an event (60_exceptions R137): `status` and the fault record are written, and nothing else. The first event of a run is the only
one (R136, R138: "`fault` is written at most once between resets"; log entry 13). -/
def takeEvent (s : State) (st : Status) (f : FaultRecord) : State :=
  match s.status with
  | .running => { s with status := st, fault := f }
  | .haltedPcZero => s
  | .haltedEndOfProgram => s
  | .faultedStackOverflow => s
  | .abortedDecodeError => s

/-- `halt(st)` of the cycle of the instruction at `pc0`: `fault = (0, pc0, 0)` (60_exceptions R131; 40_fetch_decode R71, R73, R78). -/
def halt (s : State) (st : Status) (pc0 : Int) : State := takeEvent s st { cause := .none, addr := pc0, info := 0 }

/-- `raise DecodeError(cause, info)` at the instruction at `pc0` (60_exceptions R133). -/
def decodeError (s : State) (c : Cause) (pc0 info : Int) : State := takeEvent s .abortedDecodeError { cause := c, addr := pc0, info := info }

/-- `raise StackFault(cause)` with the offending SP `v`, by the instruction at `pc0` (44_sp_checker R122). -/
def stackFault (s : State) (c : Cause) (pc0 v : Int) : State := takeEvent s .faultedStackOverflow { cause := c, addr := pc0, info := v }

end Sys2Proof.Machine
end

