-- ==== Sys2Proof/Machine/Flags.lean ====
section
/-!
DEFINITION. The machine has no condition flags (10_state R24). Its one flag is `sp_mod` (R21), set by `writeReg`; here stands what is computed
from it: the stack-pointer bounds checker, stage 5 of the cycle (44_sp_checker).
-/

namespace Sys2Proof.Machine

/-- The lower bound of the stack window, `STACK_TOP - STACK_SIZE` (00_scope R6). -/
def stackBase (p : Config.Params) : Int := Config.stackTop - (p.stackSize : Int)

/-- What is wrong with the SP value `v`: the window check first (44_sp_checker R121), then the alignment check (R123). -/
def spViolation (p : Config.Params) (v : Int) : Option Cause :=
  if v < stackBase p ∨ Config.stackTop < v then some .outOfWindow
  else if v % Config.stackSlotBytes ≠ 0 then some .spMisaligned
  else none

/-- Stage 5: the check runs exactly when `sp_mod = 1` (44_sp_checker R120), and a violation is a StackFault that leaves the instruction
committed (R122). `pc0` is the address of the instruction that wrote SP. -/
def checkSp (s : State) (pc0 : Int) : State :=
  if s.spMod then
    match spViolation s.params (sp s) with
    | some c => stackFault s c pc0 (sp s)
    | none => s
  else s

end Sys2Proof.Machine
end

