-- ==== Sys2Proof/Machine/Retire.lean ====
section
/-!
DEFINITION. The end of every cycle whose handler has run: stage 4, the pc update (40_fetch_decode R77, R78), then stage 5, the stack-bound
check (R79). Every meaning ends in one of the two operations of this file, or in a DecodeError before its first write.
-/

namespace Sys2Proof.Machine

/-- Stage 4 for a branch-class opcode: nothing is added, and a pc of 0 halts (40_fetch_decode R77, R78). -/
def updatePcBranch (s : State) (pc0 : Int) : State := if pc s = 0 then halt s .haltedPcZero pc0 else s

/-- Stage 4 for every other opcode: a pc of 0 halts, and otherwise 4 is added to the pc (40_fetch_decode R77, R78). -/
def updatePcNext (s : State) (pc0 : Int) : State :=
  if pc s = 0 then halt s .haltedPcZero pc0 else writeReg s .PC (pc s + Config.instrBytes)

/-- Stages 4 and 5 after a branch-class handler (B, BL, BR, CBZ) run at `pc0`. -/
def retireBranch (s : State) (pc0 : Int) : State := checkSp (updatePcBranch s pc0) pc0

/-- Stages 4 and 5 after any other handler (ADDI, ADD, SUBI, LDUR, STUR) run at `pc0`. -/
def retireNext (s : State) (pc0 : Int) : State := checkSp (updatePcNext s pc0) pc0

end Sys2Proof.Machine
end

