-- ==== Sys2Proof/Machine/Alu.lean ====
section
/-!
DEFINITION. The integer ALU instructions ADDI, ADD and SUBI (41_alu).
-/

namespace Sys2Proof.Machine

/-- The common shape of the three: a destination of 31 is rejected before any write (10_state R15), else the result is written, and the cycle
ends with the +4 increment (41_alu, opening). -/
def aluResult (rd : RegIdx) (v : Int) (s : State) : State :=
  if rd = RegIdx.XZR then decodeError s .writeToXzr (pc s) 31
  else retireNext (writeReg s rd v) (pc s)

/-- ADDI: `x[rd] <- wrap(x[rn] + imm)` (41_alu R90). With `rn = 31` it loads the constant and with `imm = 0` it copies, the idioms of 30_encoding R67. -/
def execAddi (rd rn : RegIdx) (imm : Int) (s : State) : Host.Outcome State Fault Refusal :=
  .next (aluResult rd (readReg s rn + imm) s)

/-- ADD: `x[rd] <- wrap(x[rn] + x[rm])`; both operands are used (41_alu R91). -/
def execAdd (rd rn rm : RegIdx) (s : State) : Host.Outcome State Fault Refusal :=
  .next (aluResult rd (readReg s rn + readReg s rm) s)

/-- SUBI: `x[rd] <- wrap(x[rn] - imm)` (41_alu R92). -/
def execSubi (rd rn : RegIdx) (imm : Int) (s : State) : Host.Outcome State Fault Refusal :=
  .next (aluResult rd (readReg s rn - imm) s)

end Sys2Proof.Machine
end

