-- ==== Sys2Proof/Machine/Branch.lean ====
section
/-!
DEFINITION. The branch-class instructions B, BL, BR and CBZ (42_branch). Their semantics are this machine's own, not ARMv8's.
-/

namespace Sys2Proof.Machine

/-- B: `pc <- wrap(pc0 + imm)` (42_branch R100). -/
def execB (imm : Int) (s : State) : Host.Outcome State Fault Refusal :=
  .next (retireBranch (writeReg s .PC (pc s + imm)) (pc s))

/-- The lowest cell BL empties, the cell of the current SP (42_branch R102). -/
def clearLo (s : State) : Int := tdiv (sp s) Config.stackSlotBytes

/-- The highest cell BL empties, the cell of the stack top, 500 (42_branch R102). -/
def clearHi : Int := tdiv Config.stackTop Config.stackSlotBytes

/-- BL: empties the cells from the current SP through the stack top, jumps to `LR + imm` and resets SP; LR is read, not written
(42_branch R102). -/
def execBl (imm : Int) (s : State) : Host.Outcome State Fault Refusal :=
  .next (retireBranch (writeReg (writeReg (clearCells s (clearLo s) clearHi) .PC (lr s + imm)) .SP Config.stackTop) (pc s))

/-- BR: `pc <- x[rd]`; `BR XZR` gives 0 and halts (42_branch R103; the idiom of 30_encoding R67). -/
def execBr (rd : RegIdx) (s : State) : Host.Outcome State Fault Refusal :=
  .next (retireBranch (writeReg s .PC (readReg s rd)) (pc s))

/-- CBZ: `if x[rd] = 0: pc <- wrap(pc0 + imm)`, and otherwise nothing, the pc included (42_branch R104). -/
def execCbz (rd : RegIdx) (imm : Int) (s : State) : Host.Outcome State Fault Refusal :=
  .next (retireBranch (if readReg s rd = 0 then writeReg s .PC (pc s + imm) else s) (pc s))

end Sys2Proof.Machine
end

