-- ==== Sys2Proof/Machine/LoadStore.lean ====
section
/-!
DEFINITION. The load-store datapath: LDUR and STUR (43_load_store), each moving one whole value between a register and a cell.
-/

namespace Sys2Proof.Machine

/-- LDUR: `x[rd] <- MemRead(x[rn], imm, n)`. The checks come in the order WriteToXZR, MemIndexOutOfRange, LoadFromNonData, all before the
write (43_load_store R110). -/
def execLdur (rd rn : RegIdx) (imm : Int) (s : State) : Host.Outcome State Fault Refusal :=
  if rd = RegIdx.XZR then .next (decodeError s .writeToXzr (pc s) 31)
  else
    match memRead s (operandIndex s rn imm) with
    | .error (c, k) => .next (decodeError s c (pc s) k)
    | .ok v => .next (retireNext (writeReg s rd v) (pc s))

/-- STUR: `MemWrite(x[rn], imm, n, x[rd])`; index 31 stores 0, and no register is written (43_load_store R111). -/
def execStur (rd rn : RegIdx) (imm : Int) (s : State) : Host.Outcome State Fault Refusal :=
  match memWrite s (operandIndex s rn imm) (stride rn) (readReg s rd) with
  | .error (c, k) => .next (decodeError s c (pc s) k)
  | .ok s' => .next (retireNext s' (pc s))

end Sys2Proof.Machine
end

