-- ==== Sys2Proof/Machine/Dispatch.lean ====
section
/-!
DEFINITION. Dispatch: "exhaustive switch over a closed set" (40_fetch_decode R75). One arm per opcode, each the handler together with stages 4
and 5 of its cycle.
-/

namespace Sys2Proof.Machine

def exec (i : Instr) (s : State) : Host.Outcome State Fault Refusal :=
  match i with
  | .addi rd rn imm => Sys2Proof.Machine.execAddi rd rn imm s
  | .add rd rn rm => Sys2Proof.Machine.execAdd rd rn rm s
  | .subi rd rn imm => Sys2Proof.Machine.execSubi rd rn imm s
  | .b imm => Sys2Proof.Machine.execB imm s
  | .bl imm => Sys2Proof.Machine.execBl imm s
  | .br rd => Sys2Proof.Machine.execBr rd s
  | .cbz rd imm => Sys2Proof.Machine.execCbz rd imm s
  | .ldur rd rn imm => Sys2Proof.Machine.execLdur rd rn imm s
  | .stur rd rn imm => Sys2Proof.Machine.execStur rd rn imm s

end Sys2Proof.Machine
end

