-- ==== Sys2Proof/Machine/Cycle.lean ====
section
/-!
DEFINITION. The cycle (40_fetch_decode R70): the halt check before the fetch (R71), the fetch (R72, R73), the decode (R74), and then the
instruction with stages 4 and 5 (`exec`).
-/

namespace Sys2Proof.Machine

/-- What a fetch yields: the instruction cell, the end of the program, or a DecodeError's cause and `info` (40_fetch_decode R72). -/
inductive Fetched where
  | instr (c : InstrCell)
  | endOfProgram
  | error (c : Cause) (info : Int)
deriving DecidableEq, Repr

/-- The fetch index `pc/4` (20_memory R32, 40_fetch_decode R72 step 2). -/
def fetchIndex (pc0 : Int) : Int := tdiv pc0 Config.instrBytes

/-- `FetchCell(pc0)`, its five steps in order (40_fetch_decode R72). -/
def fetchCell (s : State) (pc0 : Int) : Fetched :=
  if pc0 % Config.instrBytes ≠ 0 then .error .pcMisaligned pc0
  else if CellExists s (fetchIndex pc0) then
    match readCell s (fetchIndex pc0).toNat with
    | .empty => .endOfProgram
    | .data _ _ => .error .fetchedDataRecord (fetchIndex pc0)
    | .instr c => .instr c
  else .error .fetchIndexOutOfRange pc0

/-- The state at the start of a cycle: `sp_mod <- 0` (40_fetch_decode R70). -/
def beginCycle (s : State) : State := { s with spMod := false }

/-- `last <- c` (40_fetch_decode R70, 10_state R22). -/
def latch (s : State) (c : InstrCell) : State := { s with last := some c }

/-- Stages 2 to 5 on the fetched cell `c`: decode it, and run the instruction or raise the DecodeError (40_fetch_decode R74, R75). -/
def runCell (s : State) (c : InstrCell) : Host.Outcome State Fault Refusal :=
  match decodeCode s.params.xlen c.code with
  | .error e => .next (decodeError s e.cause (pc s) e.info)
  | .ok i => exec i s

/-- One cycle (40_fetch_decode R70). -/
def cycle (s : State) : Host.Outcome State Fault Refusal :=
  if pc s = 0 then .next (halt (beginCycle s) .haltedPcZero (pc s))
  else
    match fetchCell s (pc s) with
    | .error c info => .next (decodeError (beginCycle s) c (pc s) info)
    | .endOfProgram => .next (halt (beginCycle s) .haltedEndOfProgram (pc s))
    | .instr c => runCell (latch (beginCycle s) c) c

/-- The engine performs cycles only in this condition (40_fetch_decode R70). -/
abbrev Enabled (s : State) : Prop := s.phase = .exec ∧ s.status = .running

/-- The host event `cont`: one cycle if the engine is enabled, and otherwise it is ignored (70_reset_and_hazards R165). -/
def contEvent (s : State) : Host.Outcome State Fault Refusal := if Enabled s then cycle s else .next s

/-- `start` in the `Load` phase: `pc <- ENTRY_PC`, `phase <- Exec`, nothing else (70_reset_and_hazards R164). -/
def startExec (s : State) : State := { setReg s .PC Config.entryPc with phase := .exec }

/-- The pc is one that a fetch can use: not 0, a multiple of 4, its cell in the array (40_fetch_decode R71, R72). -/
abbrev Fetchable (s : State) : Prop := pc s ≠ 0 ∧ pc s % Config.instrBytes = 0 ∧ CellExists s (fetchIndex (pc s))

/-- The word at the pc's cell, as an instruction cell with the cell's byte address (20_memory R32). -/
def placeWord (s : State) (w : BitVec 32) : State :=
  writeCell s (fetchIndex (pc s)).toNat (.instr { addr := (pc s).toNat, code := .word w })

/-- A state whose next step is a cycle that fetches at a usable pc: `start` is given in the `Load` phase, a terminal status is undone, and an
unusable pc becomes the entry pc (log entry 6). -/
def readyToFetch (s : State) : State :=
  let s1 := match s.phase with
    | .load => startExec s
    | .exec => s
  let s2 := if s1.status = .running then s1 else { s1 with status := .running, fault := FaultRecord.zero }
  if Fetchable s2 then s2 else setReg s2 .PC Config.entryPc

end Sys2Proof.Machine
end

