-- ==== Sys2Proof/Machine/Step.lean ====
section
/-!
DEFINITION. One step of the machine is the host event `cont` (70_reset_and_hazards R165): one cycle, delivered at once (40_fetch_decode R81; log
entry 5). And `withFetchWord`, which stands for the host's load and start of one instruction word (log entry 6).
-/

namespace Sys2Proof.Machine

/-- One step: one cycle while `phase = Exec` and `status = Running`, and no change otherwise (40_fetch_decode R70, R82). -/
def step (s : State) : Host.Outcome State Fault Refusal := contEvent s

/-- `s` with the instruction whose table bits are `w` in the cell the next step fetches, and all that this takes. -/
def State.withFetchWord (s : State) (nbits w : Nat) : State := placeWord (readyToFetch s) (BitVec.ofNat 32 (w % 2 ^ nbits))

end Sys2Proof.Machine
end

