-- ==== Sys2Proof/Machine/HostPort.lean ====
section
/-!
DEFINITION. What the host may do to the machine (70_reset_and_hazards R160 to R168): reset, load write, `start`, `cont`, and observe. Each
event is one transition of the whole state; "the host can do nothing else" (R168).
-/

namespace Sys2Proof.Machine

/-- A host event that may change the state (70_reset_and_hazards R168). Observation changes nothing: it is the function `observe`. -/
inductive HostEvent where
  | reset
  | load (k : Nat) (c : MemCell)
  | start
  | cont
deriving DecidableEq, Repr

/-- A cell the load port takes: an instruction, or data whose value has XLEN bits (70_reset_and_hazards R163; log entry 15). -/
def loadableCell (x : Xlen) : MemCell → Bool
  | .empty => false
  | .instr _ => true
  | .data _ v => decide (Fits x v)

/-- Reset, accepted in any state (70_reset_and_hazards R160). The parameters are the machine's constants and stay (log entry 1). -/
def resetEvent (s : State) : State := State.resetWith s.params

/-- The load port: `cell[k] <- c`, in the `Load` phase only, for an index of the array (70_reset_and_hazards R163). -/
def loadEvent (k : Nat) (c : MemCell) (s : State) : Host.Outcome State Fault Refusal :=
  match s.phase with
  | .exec => .refused .loadOutsideLoadPhase
  | .load =>
    if k < s.params.memCells then
      if loadableCell s.params.xlen c then .next (writeCell s k c) else .refused .loadCellNotLoadable
    else .refused .loadIndexOutOfRange

/-- `start`, accepted in the `Load` phase (70_reset_and_hazards R164). -/
def startEvent (s : State) : Host.Outcome State Fault Refusal :=
  match s.phase with
  | .load => .next (startExec s)
  | .exec => .refused .startOutsideLoadPhase

/-- The effect of each host event (70_reset_and_hazards R168). -/
def hostEvent (e : HostEvent) (s : State) : Host.Outcome State Fault Refusal :=
  match e with
  | .reset => .next (resetEvent s)
  | .load k c => loadEvent k c s
  | .start => startEvent s
  | .cont => step s

/-- The observation port's snapshot: `x[0..31]`, every cell, `status`, `fault`, `last` (40_fetch_decode R80, 70_reset_and_hazards R166), with
the status and cause as their codes (R167; 60_exceptions R130, R132). -/
structure Observation where
  x : Vector Int 32
  cells : Memory
  statusCode : BitVec 3
  causeCode : BitVec 8
  faultAddr : Int
  faultInfo : Int
  last : Option InstrCell
deriving DecidableEq, Repr

/-- The read-only snapshot of the state (40_fetch_decode R80). -/
def observe (s : State) : Observation :=
  { x := Vector.ofFn (fun i => readReg s i), cells := s.mem, statusCode := s.status.code, causeCode := s.fault.cause.code,
    faultAddr := s.fault.addr, faultInfo := s.fault.info, last := s.last }

end Sys2Proof.Machine
end

