-- ==== Sys2Proof/Safety.lean ====
section
/-!
DEFINITION. What counts as a good state and a good end: the machine's invariant (10_state R13, R15, R20, R29; 20_memory R30) and the two normal ends
(70_reset_and_hazards R179).
-/

namespace Sys2Proof.Machine

/-- The parameters meet the spec's constraints (00_scope R6, R7). -/
abbrev ParamsLegal (s : State) : Prop := s.params.Legal

/-- Stored entry 31 is 0 (10_state R15, R29a). -/
abbrev XzrZero (s : State) : Prop := storedReg s .XZR = 0

/-- Every register holds a value of XLEN bits (10_state R10). -/
abbrev RegsFit (s : State) : Prop := ∀ i : RegIdx, Fits s.params.xlen (storedReg s i)

/-- The cell list is in canonical form (log entry 3). -/
abbrev MemCanonical (s : State) : Prop := Memory.wf s.mem

/-- Every listed cell is a cell of the array (20_memory R30). -/
abbrev CellsInArray (s : State) : Prop := ∀ e ∈ s.mem, e.1 < s.params.memCells

/-- A cell's value, if it is data, has XLEN bits (20_memory R30). -/
def MemCell.valueFits (x : Xlen) : MemCell → Bool
  | .empty => true
  | .instr _ => true
  | .data _ v => decide (Fits x v)

/-- Every data cell holds a value of XLEN bits (20_memory R30). -/
abbrev CellValuesFit (s : State) : Prop := ∀ e ∈ s.mem, MemCell.valueFits s.params.xlen e.2 = true

/-- An SP value inside the window and a multiple of 8 (10_state R13). -/
abbrev SpOk (p : Config.Params) (v : Int) : Prop := stackBase p ≤ v ∧ v ≤ Config.stackTop ∧ v % Config.stackSlotBytes = 0

/-- While the status is `Running`, SP is inside the window and a multiple of 8 (10_state R13, R29b). -/
abbrev SpInWindow (s : State) : Prop := s.status = .running → SpOk s.params (sp s)

/-- The fault record is 0 until the status leaves `Running` (10_state R20). -/
abbrev FaultZeroWhileRunning (s : State) : Prop := s.status = .running → s.fault = FaultRecord.zero

/-- In the `Load` phase the status is `Running`: no cycle has been performed (10_state R19). -/
abbrev LoadIsRunning (s : State) : Prop := s.phase = .load → s.status = .running

/-- The fault record's address and info have XLEN bits (10_state R20). -/
abbrev FaultFits (s : State) : Prop := Fits s.params.xlen s.fault.addr ∧ Fits s.params.xlen s.fault.info

/-- The invariant of the machine. -/
structure State.Inv (s : State) : Prop where
  params_legal : ParamsLegal s
  xzr_zero : XzrZero s
  regs_fit : RegsFit s
  mem_canonical : MemCanonical s
  cells_in_array : CellsInArray s
  cell_values_fit : CellValuesFit s
  sp_in_window : SpInWindow s
  fault_zero : FaultZeroWhileRunning s
  load_running : LoadIsRunning s
  fault_fits : FaultFits s

/-- The run is over (70_reset_and_hazards R179, 10_state R18). -/
abbrev Terminal (s : State) : Prop := s.status ≠ .running

/-- A normal end (60_exceptions R131, 70_reset_and_hazards R179). -/
abbrev GoodEnd (s : State) : Prop := s.status = .haltedPcZero ∨ s.status = .haltedEndOfProgram

/-- A faulted end (70_reset_and_hazards R179). -/
abbrev FaultedEnd (s : State) : Prop := s.status = .faultedStackOverflow ∨ s.status = .abortedDecodeError

/-! ## The terms the statements use -/

/-- What `exec` and `step` answer. -/
abbrev Result := Host.Outcome State Fault Refusal

/-- The condition in which every handler runs (40_fetch_decode R70): the status is `Running`, `sp_mod` has been cleared, and the pc is not 0. -/
abbrev InHandler (s : State) : Prop := s.status = .running ∧ s.spMod = false ∧ pc s ≠ 0

/-- `s` with a DecodeError raised at its pc, and nothing else changed (60_exceptions R133). -/
def abortedState (s : State) (c : Cause) (info : Int) : State :=
  { s with status := .abortedDecodeError, fault := { cause := c, addr := pc s, info := info } }

/-- `s` halted in the cycle of the instruction at `pc0` (60_exceptions R131). -/
def haltedState (s : State) (st : Status) (pc0 : Int) : State := { s with status := st, fault := { cause := .none, addr := pc0, info := 0 } }

/-- `s` with a StackFault raised by the instruction at `pc0` on the SP value `v` (44_sp_checker R122). -/
def stackFaultedState (s : State) (c : Cause) (pc0 v : Int) : State :=
  { s with status := .faultedStackOverflow, fault := { cause := c, addr := pc0, info := v } }

/-- `s` with `x[28] = v` and the pc advanced by 4, after an instruction that wrote SP (10_state R21, 40_fetch_decode R77). -/
def spWritten (s : State) (v : Int) : State :=
  { setReg (setReg s .SP v) .PC (wrap s.params.xlen (pc s + 4)) with spMod := true }

/-- The whole outcome of a non-branch instruction at `s` whose destination is `rd` and whose result is the integer `v`, `wrap(v)` being what a
register gets: one clause for each kind of destination (10_state R15, 40_fetch_decode R77, R78, 44_sp_checker R121 to R123). -/
def WritesRegister (s : State) (rd : RegIdx) (v : Int) (o : Result) : Prop :=
  let r := wrap s.params.xlen v
  (rd = .XZR → o = .next (abortedState s .writeToXzr 31)) ∧
  (rd ≠ .SP → rd ≠ .PC → rd ≠ .XZR → o = .next (setReg (setReg s rd r) .PC (wrap s.params.xlen (pc s + 4)))) ∧
  (rd = .PC → r ≠ 0 → o = .next (setReg s .PC (wrap s.params.xlen (r + 4)))) ∧
  (rd = .PC → r = 0 → o = .next (haltedState (setReg s .PC 0) .haltedPcZero (pc s))) ∧
  (rd = .SP → SpOk s.params r → o = .next (spWritten s r)) ∧
  (rd = .SP → (r < 4000 - (s.params.stackSize : Int) ∨ 4000 < r) → o = .next (stackFaultedState (spWritten s r) .outOfWindow (pc s) r)) ∧
  (rd = .SP → 4000 - (s.params.stackSize : Int) ≤ r → r ≤ 4000 → r % 8 ≠ 0 →
    o = .next (stackFaultedState (spWritten s r) .spMisaligned (pc s) r))

/-- The whole outcome of a jump from `s` to `target`: the pc, and the halt where it is 0 (40_fetch_decode R77, R78). -/
def JumpsTo (s : State) (target : Int) (o : Result) : Prop :=
  (target ≠ 0 → o = .next (setReg s .PC target)) ∧
  (target = 0 → o = .next (haltedState (setReg s .PC 0) .haltedPcZero (pc s)))

/-- The destination register an instruction names: ADDI, ADD, SUBI and LDUR have one (10_state R12, R13, R16). -/
def destReg? : Instr → Option RegIdx
  | .addi rd _ _ => some rd
  | .add rd _ _ => some rd
  | .subi rd _ _ => some rd
  | .ldur rd _ _ => some rd
  | .b _ => none
  | .bl _ => none
  | .br _ => none
  | .cbz _ _ => none
  | .stur _ _ _ => none

/-- B, BR and CBZ: the instructions whose only effect is on the pc (42_branch R101). -/
def isJump : Instr → Bool
  | .b _ => true
  | .br _ => true
  | .cbz _ _ => true
  | .addi _ _ _ => false
  | .add _ _ _ => false
  | .subi _ _ _ => false
  | .bl _ => false
  | .ldur _ _ _ => false
  | .stur _ _ _ => false

/-- The cell the engine fetches at `s` decodes to `i` (40_fetch_decode R72, R74). -/
def Fetches (s : State) (c : InstrCell) (i : Instr) : Prop :=
  fetchCell s (pc s) = .instr c ∧ decodeCode s.params.xlen c.code = .ok i

/-- The two kinds of operand token (30_encoding R51). -/
inductive TokenKind where
  | reg
  | imm
deriving DecidableEq, Repr

/-- The operand tokens of an opcode, in order (30_encoding R51). -/
def tokenKinds : Opcode → List TokenKind
  | .addi => [.reg, .reg, .imm]
  | .add => [.reg, .reg, .reg]
  | .subi => [.reg, .reg, .imm]
  | .b => [.imm]
  | .bl => [.imm]
  | .br => [.reg]
  | .cbz => [.reg, .imm]
  | .ldur => [.reg, .reg, .imm]
  | .stur => [.reg, .reg, .imm]

/-- The text is a decimal numeral without sign: digits, at least one (30_encoding R51; log entry 12). -/
def isDecimal (t : Text) : Bool := !t.isEmpty && t.all Char.isDigit

/-- The value of a decimal numeral, by the places of its digits. -/
def decimalValue : Text → Nat
  | [] => 0
  | c :: cs => (c.toNat - 48) * 10 ^ cs.length + decimalValue cs

/-- The register a token names, by the table of 10_state R17: an alias word, or a decimal number 0 to 31. -/
def regNamed (t : Text) : Option RegIdx :=
  if t = ['S', 'P'] then some 28
  else if t = ['L', 'R'] then some 30
  else if t = ['X', 'Z', 'R'] then some 31
  else if isDecimal t then (if h : decimalValue t < 32 then some ⟨decimalValue t, h⟩ else none)
  else none

/-- The integer a token spells: a decimal numeral, optionally with a leading `-` (30_encoding R51; log entry 12). -/
def intSpelled (t : Text) : Option Int :=
  if isDecimal t then some (decimalValue t)
  else if t.head? = some '-' ∧ isDecimal t.tail = true then some (-(decimalValue t.tail : Int))
  else none

/-- The constant or offset a token names: an integer that fits XLEN bits (30_encoding R51). -/
def immNamed (x : Xlen) (t : Text) : Option Int := (intSpelled t).filter (fun c => decide (Fits x c))

/-- The token is one its position allows (40_fetch_decode R83). -/
def tokenOk (x : Xlen) : TokenKind → Text → Bool
  | .reg, t => (regNamed t).isSome
  | .imm, t => (immNamed x t).isSome

/-- The operand list has the right length, and the token at index `j`, of kind `kd`, is the first from the left that its position does not allow
(40_fetch_decode R83). -/
def FirstBadToken (x : Xlen) (op : Opcode) (ts : List Text) (j : Nat) (kd : TokenKind) : Prop :=
  ts.length = (tokenKinds op).length ∧
    (∀ (j' : Nat) (kd' : TokenKind) (t' : Text), j' < j → (tokenKinds op)[j']? = some kd' → ts[j']? = some t' → tokenOk x kd' t' = true) ∧
    (tokenKinds op)[j]? = some kd ∧ ∃ t, ts[j]? = some t ∧ tokenOk x kd t = false

/-- The operand tokens are a register, a register and a constant, and name these. -/
def NamesRegRegImm (x : Xlen) (ts : List Text) (rd rn : RegIdx) (c : Int) : Prop :=
  ∃ t0 t1 t2, ts = [t0, t1, t2] ∧ regNamed t0 = some rd ∧ regNamed t1 = some rn ∧ immNamed x t2 = some c

/-- The operand tokens give the fields of the instruction, in the order of 30_encoding R51. -/
def RecordGives (x : Xlen) (ts : List Text) : Instr → Prop
  | .addi rd rn c => NamesRegRegImm x ts rd rn c
  | .add rd rn rm => ∃ t0 t1 t2, ts = [t0, t1, t2] ∧ regNamed t0 = some rd ∧ regNamed t1 = some rn ∧ regNamed t2 = some rm
  | .subi rd rn c => NamesRegRegImm x ts rd rn c
  | .b c => ∃ t0, ts = [t0] ∧ immNamed x t0 = some c
  | .bl c => ∃ t0, ts = [t0] ∧ immNamed x t0 = some c
  | .br rd => ∃ t0, ts = [t0] ∧ regNamed t0 = some rd
  | .cbz rd c => ∃ t0 t1, ts = [t0, t1] ∧ regNamed t0 = some rd ∧ immNamed x t1 = some c
  | .ldur rd rn c => NamesRegRegImm x ts rd rn c
  | .stur rd rn c => NamesRegRegImm x ts rd rn c

/-- The mnemonic of an opcode (30_encoding R51). -/
def mnemonicText : Opcode → Text
  | .addi => ['A', 'D', 'D', 'I']
  | .add => ['A', 'D', 'D']
  | .subi => ['S', 'U', 'B', 'I']
  | .b => ['B']
  | .bl => ['B', 'L']
  | .br => ['B', 'R']
  | .cbz => ['C', 'B', 'Z']
  | .ldur => ['L', 'D', 'U', 'R']
  | .stur => ['S', 'T', 'U', 'R']

/-- The cause of a bad token, by the kind its position asks for (60_exceptions R132). -/
def tokenCause : TokenKind → Cause
  | .reg => .badRegisterToken
  | .imm => .badImmediateToken

/-- The fetched cell is a record, its first bad operand token is of kind `kd`, and `v` is that token's position, counted from 0 or from 1
(60_exceptions R132, causes 2 and 12). -/
def BadTokenAt (s : State) (kd : TokenKind) (v : Int) : Prop :=
  ∃ (c : InstrCell) (r : InstrRecord) (op : Opcode) (j : Nat), fetchCell s (pc s) = .instr c ∧ c.code = .record r ∧
    r.opcode = mnemonicText op ∧ FirstBadToken s.params.xlen op r.operands j kd ∧ (v = j ∨ v = j + 1)

/-- The value a DecodeError of each cause puts in `fault.info` at `s`, and which fetched text can raise it (60_exceptions R132). For the causes of a
record alone it says what the table says and no more: the position of the FIRST BAD operand token, counted from 0 or from 1; and the number of tokens, in XLEN
bits, with the opcode token or without it. -/
def DecodeInfo (s : State) : Cause → Int → Prop
  | .unrecognisedOpcode, v => ∃ c, fetchCell s (pc s) = .instr c ∧ ∀ w, c.code = .word w → v = ((w.extractLsb 31 28).toNat : Int)
  | .badRegisterToken, v => BadTokenAt s .reg v
  | .badImmediateToken, v => BadTokenAt s .imm v
  | .operandCount, v => ∃ c r op, fetchCell s (pc s) = .instr c ∧ c.code = .record r ∧ r.opcode = mnemonicText op ∧
      r.operands.length ≠ (tokenKinds op).length ∧
      (v = wrap s.params.xlen r.operands.length ∨ v = wrap s.params.xlen (r.operands.length + 1))
  | .reservedFieldNonZero, v => ∃ c w, fetchCell s (pc s) = .instr c ∧ c.code = .word w ∧ v = w.toNat
  | .writeToXzr, v => v = 31 ∧ ∃ c i, Fetches s c i ∧ destReg? i = some .XZR
  | .pcMisaligned, v => v = pc s ∧ pc s % 4 ≠ 0
  | .fetchIndexOutOfRange, v => v = pc s ∧ ¬ CellExists s (Int.tdiv (pc s) 4)
  | .fetchedDataRecord, v => v = Int.tdiv (pc s) 4 ∧ ∃ a d, readCell s (Int.tdiv (pc s) 4).toNat = .data a d
  | .memIndexOutOfRange, v => ¬ CellExists s v ∧
      ∃ c rd rn imm, (Fetches s c (.ldur rd rn imm) ∨ Fetches s c (.stur rd rn imm)) ∧ v = operandIndex s rn imm
  | .loadFromNonData, v => (∀ a d, readCell s v.toNat ≠ .data a d) ∧ ∃ c rd rn imm, Fetches s c (.ldur rd rn imm) ∧ v = operandIndex s rn imm
  | .storeToInstruction, v => (∃ ic, readCell s v.toNat = .instr ic) ∧
      ∃ c rd rn imm, Fetches s c (.stur rd rn imm) ∧ v = operandIndex s rn imm
  | .none, _ => False
  | .outOfWindow, _ => False
  | .spMisaligned, _ => False

/-- Two cells that differ at most in their `addr` fields. -/
def sameButAddr : MemCell → MemCell → Bool
  | .empty, .empty => true
  | .instr c, .instr d => c.code = d.code
  | .data _ v, .data _ w => v = w
  | .empty, .instr _ => false
  | .empty, .data _ _ => false
  | .instr _, .empty => false
  | .instr _, .data _ _ => false
  | .data _ _, .empty => false
  | .data _ _, .instr _ => false

/-- Two states that differ at most in the `addr` fields of their cells, which are "kept for the Reporter only" (20_memory R30). -/
structure SameButAddrs (s t : State) : Prop where
  params_eq : s.params = t.params
  regs_eq : s.regs = t.regs
  status_eq : s.status = t.status
  phase_eq : s.phase = t.phase
  fault_eq : s.fault = t.fault
  spMod_eq : s.spMod = t.spMod
  last_eq : s.last.map InstrCell.code = t.last.map InstrCell.code
  cells_eq : ∀ k, sameButAddr (readCell s k) (readCell t k) = true

end Sys2Proof.Machine
end

