-- ==== Sys2Proof/Certificates/Slice0/Obligations.lean ====
section
/-!
DEFINITION. The statements for the provers, from the spec's numbered rules. Each says in its docstring which rule it formalises.
-/

open Sys2Proof Sys2Proof.Machine

/-! ## Encoding and decoding -/

/-- 30_encoding R68: `dec(enc(i))` is `i`, for every instruction with a word, every register index and every 18-bit immediate. -/
def Obligations.EncodeThenDecodeGivesTheInstruction : Prop :=
  ∀ i : Instr, i.wellFormed = true → decodeWord (encode i) = .ok i

/-- 30_encoding R68, the other direction: `enc(dec(w)) = w` for every word that decodes, and what it decodes to has a word. -/
def Obligations.DecodeThenEncodeGivesTheWord : Prop :=
  ∀ (w : BitVec 32) (i : Instr), decodeWord w = .ok i → i.wellFormed = true ∧ encode i = w

/-- Words of 95_test_vectors section 2, one for each instruction. -/
def Obligations.WordsOfTheSpecDecode : Prop :=
  decodeWord 0x129BFFFF#32 = .ok (.addi 5 6 (-1)) ∧
  decodeWord 0x2573C000#32 = .ok (.add 10 28 30) ∧
  decodeWord 0x3E70006C#32 = .ok (.subi 28 28 108) ∧
  decodeWord 0x4003FFF8#32 = .ok (.b (-8)) ∧
  decodeWord 0x5003FFF0#32 = .ok (.bl (-16)) ∧
  decodeWord 0x6F800000#32 = .ok (.br 31) ∧
  decodeWord 0x7F83FFFC#32 = .ok (.cbz 31 (-4)) ∧
  decodeWord 0x810FFFF4#32 = .ok (.ldur 2 3 (-12)) ∧
  decodeWord 0x9F700008#32 = .ok (.stur 30 28 8)

/-- 30_encoding R60: an opcode outside the nine, as a word (`op` 0 or 10 to 15, `info = op`) or as a record, raises `UnrecognisedOpcode` with no
state change. For a record the spec states no `info`: the model's is a free value (log entry 9). -/
def Obligations.UnrecognisedOpcodeAborts : Prop :=
  (∀ (s : State) (c : InstrCell) (w : BitVec 32), Enabled s → pc s ≠ 0 → fetchCell s (pc s) = .instr c → c.code = .word w →
    (w.toNat / 2 ^ 28 = 0 ∨ 10 ≤ w.toNat / 2 ^ 28) →
    step s = .next (abortedState { s with spMod := false, last := some c } .unrecognisedOpcode ((w.toNat / 2 ^ 28 : Nat) : Int))) ∧
  (∀ (s : State) (c : InstrCell) (r : InstrRecord), Enabled s → pc s ≠ 0 → fetchCell s (pc s) = .instr c → c.code = .record r →
    r.opcode ∉ [['A', 'D', 'D', 'I'], ['A', 'D', 'D'], ['S', 'U', 'B', 'I'], ['B'], ['B', 'L'], ['B', 'R'], ['C', 'B', 'Z'],
      ['L', 'D', 'U', 'R'], ['S', 'T', 'U', 'R']] →
    ∃ info, step s = .next (abortedState { s with spMod := false, last := some c } .unrecognisedOpcode info))

/-- 30_encoding R61: a legal `op` with a must-be-zero field that is not zero raises `ReservedFieldNonZero`, `info = w`, with no state change; at
record level the counterpart is a surplus operand token. The fields: format R bits 12:0, J 27:18, X 22:0, C 22:18. -/
def Obligations.ReservedFieldAborts : Prop :=
  (∀ (s : State) (c : InstrCell) (w : BitVec 32), Enabled s → pc s ≠ 0 → fetchCell s (pc s) = .instr c → c.code = .word w →
    (w.extractLsb 31 28 = 2#4 ∧ w.extractLsb 12 0 ≠ 0 ∨
     (w.extractLsb 31 28 = 4#4 ∨ w.extractLsb 31 28 = 5#4) ∧ w.extractLsb 27 18 ≠ 0 ∨
     w.extractLsb 31 28 = 6#4 ∧ w.extractLsb 22 0 ≠ 0 ∨
     w.extractLsb 31 28 = 7#4 ∧ w.extractLsb 22 18 ≠ 0) →
    step s = .next (abortedState { s with spMod := false, last := some c } .reservedFieldNonZero w.toNat)) ∧
  (∀ (s : State) (c : InstrCell) (r : InstrRecord) (op : Opcode), Enabled s → pc s ≠ 0 → fetchCell s (pc s) = .instr c →
    c.code = .record r → opcodeOfText r.opcode = some op → (tokenKinds op).length < r.operands.length →
    ∃ info, step s = .next (abortedState { s with spMod := false, last := some c } .operandCount info))

/-- 40_fetch_decode R83 (and 30_encoding R51, 10_state R17): the decode of a record whose opcode token is one of the nine mnemonics. The operand count is
checked first, then the tokens from the left: the first that its position does not allow decides the cause and is the one whose position is reported.
Without an error the record runs as the instruction of that opcode whose fields its tokens name, in order. Nothing changes but the event and the latch,
and no word raises one of these causes. Which spellings are numbers is the model's reading of the rule (log entry 12), where a position is counted from is
a free constant (log entry 10), and that the count is of operand tokens is the model's reading too (log entry 11). -/
def Obligations.RecordDecodeErrors : Prop :=
  (∀ (s : State) (c : InstrCell) (r : InstrRecord) (op : Opcode), Enabled s → pc s ≠ 0 → fetchCell s (pc s) = .instr c →
    c.code = .record r → r.opcode = mnemonicText op →
    (r.operands.length ≠ (tokenKinds op).length →
      step s = .next (abortedState { s with spMod := false, last := some c } .operandCount (wrap s.params.xlen r.operands.length))) ∧
    (∀ (j : Nat) (kd : TokenKind), FirstBadToken s.params.xlen op r.operands j kd →
      step s = .next (abortedState { s with spMod := false, last := some c } (tokenCause kd) (Config.tokenPosition j))) ∧
    (r.operands.length = (tokenKinds op).length →
      (∀ (j : Nat) (kd : TokenKind) (t : Text), (tokenKinds op)[j]? = some kd → r.operands[j]? = some t → tokenOk s.params.xlen kd t = true) →
      ∃ i, i.opcode = op ∧ i.recordWellFormed s.params.xlen = true ∧ RecordGives s.params.xlen r.operands i ∧
        step s = exec i { s with spMod := false, last := some c })) ∧
  (∀ (w : BitVec 32) (e : DecodeFailure), decodeWord w = .error e → e.cause = .unrecognisedOpcode ∨ e.cause = .reservedFieldNonZero)

/-- 30_encoding R51, R64, 10_state R17, 40_fetch_decode R74: the fields of a record, opcode by opcode, from its tokens in order. `SP` is 28, `LR` 30, `XZR`
31, and a decimal numeral its value; a leading `-` negates. Which spellings are decimal numerals is the model's reading of the rule (log entry 12). -/
def Obligations.RecordTokensGiveTheFields : Prop :=
  (readRegIdx ['S', 'P'] = some 28 ∧ readRegIdx ['L', 'R'] = some 30 ∧ readRegIdx ['X', 'Z', 'R'] = some 31 ∧
    (∀ t : Text, isDecimal t = true → (readRegIdx t).map Fin.val = if decimalValue t < 32 then some (decimalValue t) else none)) ∧
  (∀ t : Text, isDecimal t = true → readInt t = some (decimalValue t : Int) ∧ readInt ('-' :: t) = some (-(decimalValue t : Int))) ∧
  (∀ (x : Xlen) (t0 t1 t2 : Text) (r0 r1 r2 : RegIdx), regNamed t0 = some r0 → regNamed t1 = some r1 → regNamed t2 = some r2 →
    decodeRecord x { opcode := ['A', 'D', 'D'], operands := [t0, t1, t2] } = .ok (.add r0 r1 r2) ∧
    decodeRecord x { opcode := ['B', 'R'], operands := [t0] } = .ok (.br r0)) ∧
  (∀ (x : Xlen) (t0 t1 t2 : Text) (r0 r1 : RegIdx) (c : Int), regNamed t0 = some r0 → regNamed t1 = some r1 → immNamed x t2 = some c →
    decodeRecord x { opcode := ['A', 'D', 'D', 'I'], operands := [t0, t1, t2] } = .ok (.addi r0 r1 c) ∧
    decodeRecord x { opcode := ['S', 'U', 'B', 'I'], operands := [t0, t1, t2] } = .ok (.subi r0 r1 c) ∧
    decodeRecord x { opcode := ['L', 'D', 'U', 'R'], operands := [t0, t1, t2] } = .ok (.ldur r0 r1 c) ∧
    decodeRecord x { opcode := ['S', 'T', 'U', 'R'], operands := [t0, t1, t2] } = .ok (.stur r0 r1 c) ∧
    decodeRecord x { opcode := ['C', 'B', 'Z'], operands := [t0, t2] } = .ok (.cbz r0 c) ∧
    decodeRecord x { opcode := ['B'], operands := [t2] } = .ok (.b c) ∧
    decodeRecord x { opcode := ['B', 'L'], operands := [t2] } = .ok (.bl c))

/-- The status codes (60_exceptions R130) and the cause codes (R132, R134). -/
def Obligations.StatusAndCauseCodes : Prop :=
  [Status.running, .haltedPcZero, .haltedEndOfProgram, .faultedStackOverflow, .abortedDecodeError].map Status.code = [0, 1, 2, 3, 4] ∧
  [Cause.none, .unrecognisedOpcode, .badRegisterToken, .operandCount, .reservedFieldNonZero, .writeToXzr, .pcMisaligned, .fetchIndexOutOfRange,
    .fetchedDataRecord, .memIndexOutOfRange, .loadFromNonData, .storeToInstruction, .badImmediateToken, .outOfWindow, .spMisaligned].map
    Cause.code = [0, 1, 2, 3, 4, 5, 6, 7, 8, 9, 10, 11, 12, 16, 17]

/-! ## The cycle -/

/-- 40_fetch_decode R70, R75: when the cell at the pc decodes to `i`, a step is `exec i` at the state with `sp_mod` cleared and the cell latched.
That `exec` is the handler with stages 4 and 5 is the model's division of the cycle (log entry 8). -/
def Obligations.StepRunsTheDecodedInstruction : Prop :=
  ∀ (s : State) (c : InstrCell) (i : Instr), s.phase = .exec → s.status = .running → pc s ≠ 0 → pc s % 4 = 0 →
    0 ≤ pc s / 4 → pc s / 4 < (s.params.memCells : Int) → readCell s (pc s / 4).toNat = .instr c → decodeCode s.params.xlen c.code = .ok i →
    step s = exec i { s with spMod := false, last := some c }

/-- 40_fetch_decode R71: a pc of 0 at the start of a cycle halts without a fetch, `fault.cause = 0` and `fault.addr = 0`, whatever `cell[0]` holds. -/
def Obligations.PcZeroHaltsBeforeTheFetch : Prop :=
  ∀ s : State, Enabled s → pc s = 0 → step s = .next (haltedState { s with spMod := false } .haltedPcZero 0)

/-- 40_fetch_decode R72, R73: the five steps of the fetch in order, and the end of the program. -/
def Obligations.FetchChecksInOrder : Prop :=
  ∀ s : State, Enabled s → pc s ≠ 0 →
    (pc s % 4 ≠ 0 → step s = .next (abortedState { s with spMod := false } .pcMisaligned (pc s))) ∧
    (pc s % 4 = 0 → ¬ CellExists s (Int.tdiv (pc s) 4) →
      step s = .next (abortedState { s with spMod := false } .fetchIndexOutOfRange (pc s))) ∧
    (pc s % 4 = 0 → CellExists s (Int.tdiv (pc s) 4) → readCell s (Int.tdiv (pc s) 4).toNat = .empty →
      step s = .next (haltedState { s with spMod := false } .haltedEndOfProgram (pc s))) ∧
    (∀ a v, pc s % 4 = 0 → CellExists s (Int.tdiv (pc s) 4) → readCell s (Int.tdiv (pc s) 4).toNat = .data a v →
      step s = .next (abortedState { s with spMod := false } .fetchedDataRecord (Int.tdiv (pc s) 4))) ∧
    (∀ c, pc s % 4 = 0 → CellExists s (Int.tdiv (pc s) 4) → readCell s (Int.tdiv (pc s) 4).toNat = .instr c →
      step s = runCell { s with spMod := false, last := some c } c)

/-- 40_fetch_decode R70, 70_reset_and_hazards R165: `cont` is ignored unless `phase = Exec` and `status = Running`. That a
step is one `cont`, delivered at once, is the model's choice (log entry 5). -/
def Obligations.StepIsIgnoredUnlessEnabled : Prop :=
  ∀ s : State, ¬ Enabled s → step s = .next s

/-- 40_fetch_decode R75, 60_exceptions R137: every step answers a next state; no instruction is refused, and every fault is taken. -/
def Obligations.EveryStepAnswersANextState : Prop :=
  ∀ s : State, ∃ t, step s = .next t

/-! ## Registers -/

/-- 10_state R11, R15, R21 and 41_alu R96: what a register read gives after a register write, and when the write sets `sp_mod`. -/
def Obligations.RegisterReadAfterWrite : Prop :=
  ∀ (s : State) (i j : RegIdx) (v : Int),
    readReg s .XZR = 0 ∧
    (i ≠ .XZR → readReg (writeReg s i v) i = wrap s.params.xlen v) ∧
    (j ≠ i → readReg (writeReg s i v) j = readReg s j) ∧
    writeReg s .XZR v = s ∧
    (i = .SP → (writeReg s i v).spMod = true) ∧
    (i ≠ .SP → (writeReg s i v).spMod = s.spMod)

/-- 00_scope section 5.1, 41_alu R96: `wrap(v)` has XLEN bits, is congruent to `v` modulo `2^XLEN`, is the only such value, and is `v` itself where `v`
has XLEN bits. -/
def Obligations.WrapIsTwosComplement : Prop :=
  ∀ (x : Xlen) (v : Int),
    (-(2 ^ (x.bits - 1) : Int) ≤ wrap x v ∧ wrap x v ≤ 2 ^ (x.bits - 1) - 1) ∧
    (wrap x v - v) % 2 ^ x.bits = 0 ∧
    (∀ r : Int, -(2 ^ (x.bits - 1) : Int) ≤ r → r ≤ 2 ^ (x.bits - 1) - 1 → (r - v) % 2 ^ x.bits = 0 → r = wrap x v)

/-- 10_state R15: index 31 reads 0; ADDI, ADD, SUBI and LDUR with destination 31 raise `WriteToXZR` before any change; STUR, BR and CBZ with `rd = 31` only
read it and raise no such error; and no event of the host or of the engine changes the stored entry but reset, which leaves it 0. -/
def Obligations.XzrIsNeverWritten : Prop :=
  (∀ s : State, readReg s .XZR = 0) ∧
  (∀ (s : State) (i : Instr), InHandler s → destReg? i = some .XZR → exec i s = .next (abortedState s .writeToXzr 31)) ∧
  (∀ (s t : State) (i : Instr), destReg? i ≠ some .XZR → exec i s = .next t → t.fault.cause = .writeToXzr → s.fault.cause = .writeToXzr) ∧
  (∀ (s t : State) (e : HostEvent), hostEvent e s = .next t →
    storedReg t .XZR = storedReg s .XZR ∨ (e = .reset ∧ storedReg t .XZR = 0))

/-- 10_state R12, R13, R16: a register other than the pc changes only where the instruction names it as its destination, or is SP under BL. In
particular no instruction writes LR implicitly. -/
def Obligations.RegistersChangeOnlyWhereNamed : Prop :=
  ∀ (s t : State) (i : Instr) (j : RegIdx), exec i s = .next t → j ≠ .PC → destReg? i ≠ some j →
    (j = .SP → ∀ imm, i ≠ .bl imm) → storedReg t j = storedReg s j

/-! ## The instructions -/

/-- 41_alu R90 (ADDI): the encoding, the result for every destination, and the source's property of exact sums. -/
def Obligations.AddiAddsTheConstant : Prop :=
  (∀ w : BitVec 32, w.extractLsb 31 28 = 1#4 →
    decodeWord w = .ok (.addi (w.extractLsb 27 23).toFin (w.extractLsb 22 18).toFin (w.extractLsb 17 0).toInt)) ∧
  (∀ (s : State) (rd rn : RegIdx) (imm : Int), InHandler s →
    WritesRegister s rd (readReg s rn + imm) (exec (.addi rd rn imm) s)) ∧
  (∀ (s : State) (rd rn : RegIdx) (imm : Int), InHandler s → rd ≠ .PC → rd ≠ .XZR → Fits s.params.xlen (readReg s rn + imm) →
    ∃ t, exec (.addi rd rn imm) s = .next t ∧ readReg t rd = readReg s rn + imm ∧ ∀ j, j ≠ rd → j ≠ .PC → readReg t j = readReg s j)

/-- 41_alu R91 (ADD): the encoding with its reserved field, and the result, which uses both operands, for every destination. -/
def Obligations.AddAddsBothRegisters : Prop :=
  (∀ w : BitVec 32, w.extractLsb 31 28 = 2#4 →
    decodeWord w = if w.extractLsb 12 0 = 0 then
        .ok (.add (w.extractLsb 27 23).toFin (w.extractLsb 22 18).toFin (w.extractLsb 17 13).toFin)
      else .error { cause := .reservedFieldNonZero, info := w.toNat }) ∧
  (∀ (s : State) (rd rn rm : RegIdx), InHandler s → WritesRegister s rd (readReg s rn + readReg s rm) (exec (.add rd rn rm) s))

/-- 41_alu R92 (SUBI): the encoding, the result for every destination, and the source's property of exact differences. -/
def Obligations.SubiSubtractsTheConstant : Prop :=
  (∀ w : BitVec 32, w.extractLsb 31 28 = 3#4 →
    decodeWord w = .ok (.subi (w.extractLsb 27 23).toFin (w.extractLsb 22 18).toFin (w.extractLsb 17 0).toInt)) ∧
  (∀ (s : State) (rd rn : RegIdx) (imm : Int), InHandler s →
    WritesRegister s rd (readReg s rn - imm) (exec (.subi rd rn imm) s)) ∧
  (∀ (s : State) (rd rn : RegIdx) (imm : Int), InHandler s → rd ≠ .PC → rd ≠ .XZR → Fits s.params.xlen (readReg s rn - imm) →
    ∃ t, exec (.subi rd rn imm) s = .next t ∧ readReg t rd = readReg s rn - imm ∧ ∀ j, j ≠ rd → j ≠ .PC → readReg t j = readReg s j)

/-- 42_branch R100 (B): the encoding with its reserved field, the jump relative to the branch itself, the hang of offset 0 under every number of steps, and
a misaligned target found by the next fetch. -/
def Obligations.BJumpsRelativeToItself : Prop :=
  (∀ w : BitVec 32, w.extractLsb 31 28 = 4#4 →
    decodeWord w = if w.extractLsb 27 18 = 0 then .ok (.b (w.extractLsb 17 0).toInt)
      else .error { cause := .reservedFieldNonZero, info := w.toNat }) ∧
  (∀ (s : State) (imm : Int), InHandler s → JumpsTo s (wrap s.params.xlen (pc s + imm)) (exec (.b imm) s)) ∧
  (∀ s : State, InHandler s → Fits s.params.xlen (pc s) → exec (.b 0) s = .next s) ∧
  (∀ (s : State) (c : InstrCell), Enabled s → pc s ≠ 0 → Fits s.params.xlen (pc s) → Fetches s c (.b 0) →
    ∀ n, Host.Core.run core (n + 1) s = .next { s with spMod := false, last := some c }) ∧
  (∀ (s t : State) (imm : Int), InHandler s → s.phase = .exec → exec (.b imm) s = .next t → imm % 4 ≠ 0 → pc s % 4 = 0 →
    step t = .next (abortedState t .pcMisaligned (pc t)))

/-- 42_branch R102 (BL): the encoding with its reserved field; the cells from `tdiv(SP, 8)` through 500 become `Empty`, the pc is `LR + imm`, SP is
`STACK_TOP`, nothing else changes, and the stack check passes; the range lies in the stack cells while SP lies in its window. -/
def Obligations.BlUnwindsTheStack : Prop :=
  (∀ w : BitVec 32, w.extractLsb 31 28 = 5#4 →
    decodeWord w = if w.extractLsb 27 18 = 0 then .ok (.bl (w.extractLsb 17 0).toInt)
      else .error { cause := .reservedFieldNonZero, info := w.toNat }) ∧
  (∀ (s : State) (imm : Int), InHandler s →
    ∃ m : Memory, (MemCanonical s → Memory.wf m) ∧
      (∀ k : Nat, Memory.read m k = if Int.tdiv (sp s) 8 ≤ (k : Int) ∧ (k : Int) ≤ 500 then .empty else readCell s k) ∧
      (wrap s.params.xlen (lr s + imm) ≠ 0 →
        exec (.bl imm) s =
          .next { setReg (setReg s .PC (wrap s.params.xlen (lr s + imm))) .SP 4000 with mem := m, spMod := true }) ∧
      (wrap s.params.xlen (lr s + imm) = 0 →
        exec (.bl imm) s =
          .next (haltedState { setReg (setReg s .PC 0) .SP 4000 with mem := m, spMod := true } .haltedPcZero (pc s)))) ∧
  (∀ s : State, s.Inv → s.status = .running →
    Int.tdiv (4000 - (s.params.stackSize : Int)) 8 ≤ Int.tdiv (sp s) 8 ∧ Int.tdiv (sp s) 8 ≤ 500 ∧ 500 < s.params.memCells)

/-- 42_branch R103 (BR): the encoding with its reserved field, the jump to the register's value, the halt of `BR XZR`, and the hang of `BR X29` under every
number of steps. -/
def Obligations.BrJumpsToTheRegister : Prop :=
  (∀ w : BitVec 32, w.extractLsb 31 28 = 6#4 →
    decodeWord w = if w.extractLsb 22 0 = 0 then .ok (.br (w.extractLsb 27 23).toFin)
      else .error { cause := .reservedFieldNonZero, info := w.toNat }) ∧
  (∀ (s : State) (rd : RegIdx), InHandler s → Fits s.params.xlen (readReg s rd) → JumpsTo s (readReg s rd) (exec (.br rd) s)) ∧
  (∀ s : State, InHandler s → exec (.br .XZR) s = .next (haltedState (setReg s .PC 0) .haltedPcZero (pc s))) ∧
  (∀ s : State, InHandler s → Fits s.params.xlen (pc s) → exec (.br .PC) s = .next s) ∧
  (∀ (s : State) (c : InstrCell), Enabled s → pc s ≠ 0 → Fits s.params.xlen (pc s) → Fetches s c (.br .PC) →
    ∀ n, Host.Core.run core (n + 1) s = .next { s with spMod := false, last := some c })

/-- 42_branch R104 (CBZ): the encoding with its reserved field, the jump where the register is exactly 0, and no change at all, the pc included, where it
is not. -/
def Obligations.CbzBranchesOnZeroOnly : Prop :=
  (∀ w : BitVec 32, w.extractLsb 31 28 = 7#4 →
    decodeWord w = if w.extractLsb 22 18 = 0 then .ok (.cbz (w.extractLsb 27 23).toFin (w.extractLsb 17 0).toInt)
      else .error { cause := .reservedFieldNonZero, info := w.toNat }) ∧
  (∀ (s : State) (rd : RegIdx) (imm : Int), InHandler s → readReg s rd = 0 →
    JumpsTo s (wrap s.params.xlen (pc s + imm)) (exec (.cbz rd imm) s)) ∧
  (∀ (s : State) (rd : RegIdx) (imm : Int), InHandler s → readReg s rd ≠ 0 → exec (.cbz rd imm) s = .next s)

/-- 43_load_store R110 (LDUR): the encoding, the three checks in order, and the whole value of the data cell for every destination. The cell index is
43_load_store R113's: base and offset divided separately, by 8 where the base is SP and by 4 otherwise. -/
def Obligations.LdurLoadsTheCell : Prop :=
  (∀ w : BitVec 32, w.extractLsb 31 28 = 8#4 →
    decodeWord w = .ok (.ldur (w.extractLsb 27 23).toFin (w.extractLsb 22 18).toFin (w.extractLsb 17 0).toInt)) ∧
  (∀ (s : State) (rd rn : RegIdx) (imm n k : Int), InHandler s → n = (if rn = .SP then 8 else 4) →
    k = Int.tdiv (readReg s rn) n + Int.tdiv imm n →
    (rd = .XZR → exec (.ldur rd rn imm) s = .next (abortedState s .writeToXzr 31)) ∧
    (rd ≠ .XZR → (k < 0 ∨ (s.params.memCells : Int) ≤ k) → exec (.ldur rd rn imm) s = .next (abortedState s .memIndexOutOfRange k)) ∧
    (rd ≠ .XZR → 0 ≤ k → k < (s.params.memCells : Int) → (∀ a v, readCell s k.toNat ≠ .data a v) →
      exec (.ldur rd rn imm) s = .next (abortedState s .loadFromNonData k)) ∧
    (∀ a v, rd ≠ .XZR → 0 ≤ k → k < (s.params.memCells : Int) → readCell s k.toNat = .data a v → Fits s.params.xlen v →
      WritesRegister s rd v (exec (.ldur rd rn imm) s) ∧ wrap s.params.xlen v = v))

/-- 43_load_store R111 (STUR): the encoding, the two checks in order, and the data cell written, `Data(k*n, x[rd])`, with every other cell, every register
but the pc and `sp_mod` unchanged. Index 31 stores 0. -/
def Obligations.SturStoresTheRegister : Prop :=
  (∀ w : BitVec 32, w.extractLsb 31 28 = 9#4 →
    decodeWord w = .ok (.stur (w.extractLsb 27 23).toFin (w.extractLsb 22 18).toFin (w.extractLsb 17 0).toInt)) ∧
  (∀ (s : State) (rd rn : RegIdx) (imm n k : Int), InHandler s → n = (if rn = .SP then 8 else 4) →
    k = Int.tdiv (readReg s rn) n + Int.tdiv imm n →
    ((k < 0 ∨ (s.params.memCells : Int) ≤ k) → exec (.stur rd rn imm) s = .next (abortedState s .memIndexOutOfRange k)) ∧
    (∀ c, 0 ≤ k → k < (s.params.memCells : Int) → readCell s k.toNat = .instr c →
      exec (.stur rd rn imm) s = .next (abortedState s .storeToInstruction k)) ∧
    (0 ≤ k → k < (s.params.memCells : Int) → (∀ c, readCell s k.toNat ≠ .instr c) → MemCanonical s →
      ∃ m : Memory, Memory.wf m ∧
        (∀ j : Nat, Memory.read m j = if (j : Int) = k then .data (k * n).toNat (readReg s rd) else readCell s j) ∧
        exec (.stur rd rn imm) s = .next { setReg s .PC (wrap s.params.xlen (pc s + 4)) with mem := m }))

/-! ## Frames -/

/-- The frame of ADDI, ADD, SUBI and LDUR: whatever the outcome, only the destination register, the pc and, where the destination is SP, `sp_mod` change
beside an event's `status` and `fault`; every cell, the parameters, the phase and the latch stay. -/
def Obligations.RegisterDestinationFrame : Prop :=
  ∀ (s t : State) (i : Instr) (rd : RegIdx), destReg? i = some rd → exec i s = .next t →
    (∀ j, j ≠ rd → j ≠ .PC → storedReg t j = storedReg s j) ∧
    (∀ k, readCell t k = readCell s k) ∧ t.mem = s.mem ∧
    t.params = s.params ∧ t.phase = s.phase ∧ t.last = s.last ∧
    (rd ≠ .SP → t.spMod = s.spMod) ∧
    (t.status = .running → t.fault = s.fault)

/-- The frame of B, BR and CBZ: every register but the pc, every cell, the parameters, the phase, the latch and `sp_mod` stay. -/
def Obligations.JumpFrame : Prop :=
  ∀ (s t : State) (i : Instr), isJump i = true → exec i s = .next t →
    (∀ j, j ≠ .PC → storedReg t j = storedReg s j) ∧
    (∀ k, readCell t k = readCell s k) ∧ t.mem = s.mem ∧
    t.params = s.params ∧ t.phase = s.phase ∧ t.last = s.last ∧ t.spMod = s.spMod ∧
    (t.status = .running → t.fault = s.fault)

/-- The frame of BL: every register but SP and the pc, LR among them, and every cell outside `tdiv(SP, 8) .. 500` stay. -/
def Obligations.BlFrame : Prop :=
  ∀ (s t : State) (imm : Int), exec (.bl imm) s = .next t →
    (∀ j, j ≠ .PC → j ≠ .SP → storedReg t j = storedReg s j) ∧
    (∀ k : Nat, ((k : Int) < tdiv (sp s) 8 ∨ 500 < (k : Int)) → readCell t k = readCell s k) ∧
    t.params = s.params ∧ t.phase = s.phase ∧ t.last = s.last ∧
    (t.status = .running → t.fault = s.fault)

/-- The frame of STUR: every register but the pc, and every cell but the one at the operand's effective index, stay. -/
def Obligations.StoreFrame : Prop :=
  ∀ (s t : State) (rd rn : RegIdx) (imm : Int), MemCanonical s → exec (.stur rd rn imm) s = .next t →
    (∀ j, j ≠ .PC → storedReg t j = storedReg s j) ∧
    (∀ k : Nat, (k : Int) ≠ operandIndex s rn imm → readCell t k = readCell s k) ∧
    t.params = s.params ∧ t.phase = s.phase ∧ t.last = s.last ∧ t.spMod = s.spMod ∧
    (t.status = .running → t.fault = s.fault)

/-! ## Memory -/

/-- 20_memory R33: the effective index divides base and offset separately, by the stride the base's INDEX selects. It is `tdiv(b + o, n)` where both are
multiples of `n`, or both non-negative with remainders that sum to less than `n`; and it is not so in general. -/
def Obligations.EffectiveIndexDividesSeparately : Prop :=
  (∀ (s : State) (rn : RegIdx) (o : Int), operandIndex s rn o =
    if rn = 28 then Int.tdiv (readReg s rn) 8 + Int.tdiv o 8 else Int.tdiv (readReg s rn) 4 + Int.tdiv o 4) ∧
  (∀ b o n : Int, (n = 4 ∨ n = 8) →
    (b % n = 0 ∧ o % n = 0 ∨ 0 ≤ b ∧ 0 ≤ o ∧ b % n + o % n < n) → effIndex b o n = Int.tdiv (b + o) n) ∧
  effIndex 24 (-4) 8 = 3 ∧ Int.tdiv (24 + -4) 8 = 2

/-- 43_load_store R112 (an inference the spec marks as derived): a value stored at (base, offset) is read back from there, for every value, while the base register holds the same value. -/
def Obligations.StoreThenLoadRoundTrips : Prop :=
  ∀ (s t : State) (rs rn rd : RegIdx) (imm : Int), InHandler s → MemCanonical s → Fits s.params.xlen (readReg s rs) →
    exec (.stur rs rn imm) s = .next t → t.status = .running → readReg t rn = readReg s rn → rd ≠ .PC → rd ≠ .XZR →
    ∃ u, exec (.ldur rd rn imm) t = .next u ∧ readReg u rd = readReg s rs

/-- 20_memory R35 (an inference the spec marks as derived): a value stored on the stack at cell `k` is read back by a general load at address `4k`, and one stored at general address `4k` by a
stack load whose index is `k`. -/
def Obligations.StackAndGeneralViewsAlias : Prop :=
  ∀ (s t : State) (rs rd : RegIdx) (off : Int), InHandler s → MemCanonical s → Fits s.params.xlen (readReg s rs) → t.status = .running →
    rd ≠ .PC → rd ≠ .XZR →
    (exec (.stur rs .SP off) s = .next t →
      ∃ u, exec (.ldur rd .XZR (4 * operandIndex s .SP off)) t = .next u ∧ readReg u rd = readReg s rs) ∧
    (exec (.stur rs .XZR (4 * operandIndex s .SP off)) s = .next t →
      ∃ u, exec (.ldur rd .SP off) t = .next u ∧ readReg u rd = readReg s rs)

/-- 20_memory R39: STUR to a cell that holds an instruction faults and changes no cell; no step changes an instruction cell, except that BL empties every
cell in its clearing range, whatever it holds. -/
def Obligations.InstructionCellsAreImmutable : Prop :=
  (∀ (s : State) (rd rn : RegIdx) (imm : Int) (c : InstrCell), InHandler s → CellExists s (operandIndex s rn imm) →
    readCell s (operandIndex s rn imm).toNat = .instr c →
    exec (.stur rd rn imm) s = .next (abortedState s .storeToInstruction (operandIndex s rn imm))) ∧
  (∀ (s t : State) (k : Nat) (c : InstrCell), MemCanonical s → step s = .next t → readCell s k = .instr c →
    readCell t k = .instr c ∨
      (readCell t k = .empty ∧ tdiv (sp s) 8 ≤ (k : Int) ∧ (k : Int) ≤ 500 ∧ Enabled s ∧ ∃ cl imm, Fetches s cl (.bl imm))) ∧
  (∀ (s t : State) (k : Nat) (cl : InstrCell) (imm : Int), Enabled s → pc s ≠ 0 → Fetches s cl (.bl imm) → step s = .next t →
    tdiv (sp s) 8 ≤ (k : Int) → (k : Int) ≤ 500 → readCell t k = .empty)

/-- 10_state R29c with 70_reset_and_hazards R170 (inferences the spec marks as derived): in a state that meets the invariant, an instruction cell below the stack cells is never changed by a step. -/
def Obligations.ProgramBelowTheStackIsNeverChanged : Prop :=
  ∀ (s t : State) (k : Nat) (c : InstrCell), s.Inv → step s = .next t →
    (k : Int) < Int.tdiv (4000 - (s.params.stackSize : Int)) 8 → readCell s k = .instr c → readCell t k = .instr c

/-- The canonical form of the cell list: two canonical lists with the same cells are the same list (log entry 3, the model's own choice). -/
def Obligations.CanonicalMemoryIsItsCells : Prop :=
  ∀ m m' : Memory, Memory.wf m → Memory.wf m' → (∀ k, Memory.read m k = Memory.read m' k) → m = m'

/-- 20_memory R30, R37, 40_fetch_decode R72: the `addr` fields of cells are for the Reporter only. Two states that differ at most in them step to states that
differ at most in them. -/
def Obligations.AddressFieldsAreInvisible : Prop :=
  ∀ s t s' : State, MemCanonical s → MemCanonical t → SameButAddrs s t → step s = .next s' →
    ∃ t', step t = .next t' ∧ SameButAddrs s' t'

/-! ## The invariant -/

/-- The reset state meets the invariant, for all legal parameters. -/
def Obligations.ResetMeetsTheInvariant : Prop :=
  State.reset.Inv ∧ ∀ p : Config.Params, p.Legal → (State.resetWith p).Inv

/-- 10_state R13, R15, R20, R29: every step keeps the invariant (stored entry 31 is 0; SP in its window and a multiple of 8 while Running; registers, data
and fault record of XLEN bits; memory canonical and inside the array; fault 0 while Running). -/
def Obligations.StepKeepsTheInvariant : Prop :=
  ∀ s t : State, s.Inv → step s = .next t → t.Inv

/-- 70_reset_and_hazards R168: every event of the host keeps the invariant. Which cells the load port takes is the model's reading of R163 (log entry
15). -/
def Obligations.HostEventsKeepTheInvariant : Prop :=
  ∀ (s t : State) (e : HostEvent), s.Inv → hostEvent e s = .next t → t.Inv

/-! ## Events -/

/-- 60_exceptions R133: a step that ends in `Aborted-DecodeError` changed no register and no cell, the pc still is the instruction's address, and the fault
record names a DecodeError cause with its `info` (for a bad token of a record the position of the first bad one) and that address; the latch may hold the
fetched cell. -/
def Obligations.DecodeErrorIsPrecise : Prop :=
  ∀ s t : State, Enabled s → step s = .next t → t.status = .abortedDecodeError →
    t.regs = s.regs ∧ t.mem = s.mem ∧ pc t = pc s ∧ t.fault.addr = pc s ∧
    DecodeInfo s t.fault.cause t.fault.info ∧ t.params = s.params ∧ t.phase = s.phase ∧ t.spMod = false ∧
    (t.last = s.last ∨ ∃ c, fetchCell s (pc s) = .instr c ∧ t.last = some c)

/-- 44_sp_checker R120: the check runs exactly when the instruction wrote index 28 (ADDI, ADD, SUBI, LDUR with destination 28, or BL), and then it faults
exactly when SP is outside its window or not a multiple of 8; a cycle that leaves SP alone never raises a StackFault. -/
def Obligations.CheckerRunsExactlyWhenSpIsWritten : Prop :=
  ∀ (s t : State) (i : Instr), InHandler s → exec i s = .next t →
    (t.spMod = true ↔ t.status ≠ .abortedDecodeError ∧ (destReg? i = some .SP ∨ ∃ imm, i = .bl imm)) ∧
    (t.spMod = true → (t.status = .faultedStackOverflow ↔ ¬ SpOk t.params (sp t))) ∧
    (t.spMod = false → t.status ≠ .faultedStackOverflow)

/-- 44_sp_checker R121: an instruction that leaves SP outside `[STACK_TOP - STACK_SIZE, STACK_TOP]` ends the run with `OutOfWindow`; both bounds are legal
values; BL always passes. The premise is the invariant, which rules out a bad SP left by an earlier cycle. -/
def Obligations.SpOutsideTheWindowIsFatal : Prop :=
  ∀ s t : State, s.Inv → Enabled s → step s = .next t →
    ((sp t < 4000 - (s.params.stackSize : Int) ∨ 4000 < sp t) →
      t.status = .faultedStackOverflow ∧ t.fault = { cause := .outOfWindow, addr := pc s, info := sp t } ∧
      ∀ n, Host.Core.run core n t = .next t) ∧
    (4000 - (s.params.stackSize : Int) ≤ sp t → sp t ≤ 4000 → t.fault.cause ≠ .outOfWindow) ∧
    (∀ c imm, pc s ≠ 0 → Fetches s c (.bl imm) → t.status ≠ .faultedStackOverflow)

/-- 44_sp_checker R123: an SP inside the window and not a multiple of 8 is a StackFault `SPMisaligned`; outside the window the window check has priority. -/
def Obligations.SpMisalignedIsFatal : Prop :=
  ∀ s t : State, s.Inv → Enabled s → step s = .next t →
    (4000 - (s.params.stackSize : Int) ≤ sp t → sp t ≤ 4000 → sp t % 8 ≠ 0 →
      t.status = .faultedStackOverflow ∧ t.fault = { cause := .spMisaligned, addr := pc s, info := sp t }) ∧
    ((sp t < 4000 - (s.params.stackSize : Int) ∨ 4000 < sp t) → t.fault.cause = .outOfWindow)

/-- 44_sp_checker R122: what a StackFault leaves. The fault record names the instruction, the cause by R121 and R123, and the offending SP, which stays in
`x[28]`; the pc has advanced by 4; no cell and no other register changed; the observation port shows the fault; and the engine never
steps again. -/
def Obligations.StackFaultLeavesTheInstructionCommitted : Prop :=
  ∀ s t : State, Enabled s → step s = .next t → t.status = .faultedStackOverflow →
    ¬ SpOk s.params (sp t) ∧
    t.fault = { cause := if sp t < 4000 - (s.params.stackSize : Int) ∨ 4000 < sp t then .outOfWindow else .spMisaligned,
                addr := pc s, info := sp t } ∧
    pc t = wrap s.params.xlen (pc s + 4) ∧
    (∀ j, j ≠ .PC → j ≠ .SP → storedReg t j = storedReg s j) ∧ t.mem = s.mem ∧
    (∃ c i, Fetches s c i ∧ destReg? i = some .SP) ∧
    (observe t).statusCode = 3 ∧ (observe t).faultAddr = pc s ∧ (observe t).faultInfo = sp t ∧
    ∀ n, Host.Core.run core n t = .next t

/-- 60_exceptions R131: the two halts. `Halted-PC-Zero`: the pc is 0, at the start of the cycle with nothing changed, or after the
handler of the fetched instruction. `Halted-End-Of-Program`: the cell at the pc is `Empty`, and every register and cell is as
before. Both have `fault.cause = 0` and the address of the cycle. -/
def Obligations.HaltsAreNormalEnds : Prop :=
  ∀ s t : State, Enabled s → step s = .next t →
    (t.status = .haltedPcZero → pc t = 0 ∧ t.fault = { cause := .none, addr := pc s, info := 0 } ∧
      (pc s = 0 ∧ t.regs = s.regs ∧ t.mem = s.mem ∨
       pc s ≠ 0 ∧ ∃ c i, Fetches s c i ∧ exec i { s with spMod := false, last := some c } = .next t)) ∧
    (t.status = .haltedEndOfProgram → t.regs = s.regs ∧ t.mem = s.mem ∧ readCell s (Int.tdiv (pc s) 4).toNat = .empty ∧
      t.fault = { cause := .none, addr := pc s, info := 0 })

/-- 60_exceptions R138: a terminal status and its fault record are permanent under every number of steps and every event of the host but reset, and reset
leaves it. -/
def Obligations.TerminalStatusIsPermanent : Prop :=
  ∀ s : State, Terminal s →
    (∀ n, Host.Core.run core n s = .next s) ∧
    (∀ e t, e ≠ .reset → hostEvent e s = .next t → t.status = s.status ∧ t.fault = s.fault) ∧
    (∃ t, hostEvent .reset s = .next t ∧ t.status = .running)

/-- 70_reset_and_hazards R171: a CBZ whose register is not 0 changes nothing but the latch, and is run again for ever; the status stays `Running`. -/
def Obligations.CbzNotTakenRunsForEver : Prop :=
  ∀ (s : State) (c : InstrCell) (rd : RegIdx) (imm : Int), Enabled s → pc s ≠ 0 → Fetches s c (.cbz rd imm) → readReg s rd ≠ 0 →
    ∀ n, Host.Core.run core (n + 1) s = .next { s with spMod := false, last := some c }

/-- 70_reset_and_hazards R172 (an inference the spec marks as derived): the self-branches. A taken CBZ with offset 0 is run again for ever, and so is a BL
whose `LR + imm` is its own address, where its own cell is outside its clearing range: the pc stays and the status stays `Running`. -/
def Obligations.SelfBranchesRunForEver : Prop :=
  (∀ (s : State) (c : InstrCell) (rd : RegIdx), Enabled s → pc s ≠ 0 → Fits s.params.xlen (pc s) → Fetches s c (.cbz rd 0) → readReg s rd = 0 →
    ∀ n, Host.Core.run core (n + 1) s = .next { s with spMod := false, last := some c }) ∧
  (∀ (s : State) (c : InstrCell) (imm : Int), Enabled s → pc s ≠ 0 → Fetches s c (.bl imm) → wrap s.params.xlen (lr s + imm) = pc s →
    (Int.tdiv (pc s) 4 < Int.tdiv (sp s) 8 ∧ Int.tdiv (pc s) 4 < 500 ∨ 500 < Int.tdiv (pc s) 4) →
    ∀ n, ∃ t, Host.Core.run core (n + 1) s = .next t ∧ t.status = .running ∧ pc t = pc s ∧ sp t = 4000 ∧
      ∀ j, j ≠ .PC → j ≠ .SP → storedReg t j = storedReg s j)

/-- 30_encoding R67, 70_reset_and_hazards R178 (the latter marked as derived): nothing is expanded, what decodes has the opcode its text names; and the three
idioms: `BR XZR` halts, `ADDI Xd, XZR, #c` loads the constant and `ADDI Xd, Xn, #0` copies, for every destination. -/
def Obligations.IdiomsHaltLoadAndCopy : Prop :=
  (∀ (w : BitVec 32) (i : Instr), decodeWord w = .ok i → opcodeNumber i.opcode = w.extractLsb 31 28) ∧
  (∀ (x : Xlen) (r : InstrRecord) (i : Instr), decodeRecord x r = .ok i → r.opcode = mnemonicText i.opcode) ∧
  (∀ (s : State) (c : InstrCell), Enabled s → pc s ≠ 0 → Fetches s c (.br .XZR) →
    step s = .next (haltedState (setReg { s with spMod := false, last := some c } .PC 0) .haltedPcZero (pc s))) ∧
  (∀ (s : State) (rd : RegIdx) (imm : Int), InHandler s → WritesRegister s rd imm (exec (.addi rd .XZR imm) s)) ∧
  (∀ (s : State) (rd rn : RegIdx), InHandler s → WritesRegister s rd (readReg s rn) (exec (.addi rd rn 0) s)) ∧
  (∀ (x : Xlen) (v : Int), Fits x v → wrap x v = v)

/-! ## Reset and the host -/

/-- 10_state R26, R27: the registers and cells after reset, in whatever state it is applied. -/
def Obligations.ResetLeavesTheSpecsValues : Prop :=
  ∀ s r : State, (r = State.reset ∨ hostEvent .reset s = .next r) →
    readReg r .XZR = 0 ∧ storedReg r .XZR = 0 ∧ readReg r .PC = 100 ∧ readReg r .SP = 4000 ∧ readReg r .LR = 0 ∧
    (∀ i : RegIdx, i.val ≤ 27 → readReg r i = 0) ∧ (∀ k, readCell r k = .empty)

/-- 10_state R28: the control state after reset. The pc is not the entry point: `start` sets it to 200. -/
def Obligations.ResetLeavesTheControlStateClear : Prop :=
  ∀ s r : State, (r = State.reset ∨ hostEvent .reset s = .next r) →
    r.status = .running ∧ r.phase = .load ∧ r.fault = { cause := .none, addr := 0, info := 0 } ∧ r.spMod = false ∧ r.last = none ∧
    step r = .next r ∧ pc r ≠ 200 ∧ ∃ t, hostEvent .start r = .next t ∧ pc t = 200 ∧ t.phase = .exec

/-- 70_reset_and_hazards R164: `start` is accepted in the `Load` phase only; it sets the pc to 200 and the phase to `Exec` and changes nothing else; the
first cycle then fetches `cell[50]`, and where that is `Empty` the run ends at once. -/
def Obligations.StartSetsThePcTo200 : Prop :=
  (∀ s : State, s.phase = .load → hostEvent .start s = .next { setReg s .PC 200 with phase := .exec }) ∧
  (∀ s t : State, s.phase = .exec → hostEvent .start s ≠ .next t) ∧
  (∀ (s t : State) (c : InstrCell), s.phase = .load → s.status = .running → 51 ≤ s.params.memCells → readCell s 50 = .instr c →
    hostEvent .start s = .next t → step t = runCell { t with spMod := false, last := some c } c) ∧
  (∀ s t : State, s.phase = .load → s.status = .running → 51 ≤ s.params.memCells → readCell s 50 = .empty → hostEvent .start s = .next t →
    step t = .next (haltedState { t with spMod := false } .haltedEndOfProgram 200))

/-- 70_reset_and_hazards R163: the load port writes one cell, in the `Load` phase only, and never outside the array.
Which cells the port takes (`loadableCell`) is the model's reading of the rule (log entry 15). -/
def Obligations.LoadPortWritesOneCell : Prop :=
  (∀ (s : State) (k : Nat) (c : MemCell), MemCanonical s → s.phase = .load → k < s.params.memCells → loadableCell s.params.xlen c = true →
    ∃ m : Memory, Memory.wf m ∧ (∀ j, Memory.read m j = if j = k then c else readCell s j) ∧
      hostEvent (.load k c) s = .next { s with mem := m }) ∧
  (∀ (s t : State) (k : Nat) (c : MemCell), (s.phase = .exec ∨ s.params.memCells ≤ k) → hostEvent (.load k c) s ≠ .next t)

/-- 10_state R19, 00_scope R4, R6, R7: the phase never returns to `Load` but by reset, and no event changes the parameters,
which stand in the state by the model's choice (log entry 1). -/
def Obligations.PhaseAndParametersStay : Prop :=
  ∀ (s t : State) (e : HostEvent), hostEvent e s = .next t →
    t.params = s.params ∧ (e ≠ .reset → s.phase = .exec → t.phase = .exec)

/-- 40_fetch_decode R80, 70_reset_and_hazards R166: the observation port shows every register as an instruction would read it, every cell, the codes of status and
cause, the fault record and the latch. -/
def Obligations.ObservationShowsTheState : Prop :=
  ∀ s : State, (∀ i : RegIdx, (observe s).x.get i = readReg s i) ∧ (∀ k, Memory.read (observe s).cells k = readCell s k) ∧
    (observe s).statusCode = s.status.code ∧ (observe s).causeCode = s.fault.cause.code ∧
    (observe s).faultAddr = s.fault.addr ∧ (observe s).faultInfo = s.fault.info ∧ (observe s).last = s.last
end

