-- ==== Sys2Proof/Laws/Arith.lean ====
section
/-!
SUPPORT. Facts about `wrap` (41_alu R96) and `tdiv` (20_memory R34).
-/

namespace Sys2Proof

theorem Xlen.half_pos (x : Xlen) : 0 < x.half := by cases x <;> decide

theorem Xlen.half_eq_pow (x : Xlen) : x.half = 2 ^ (x.bits - 1) := by cases x <;> rfl

/-- `wrap` gives a value of XLEN bits. -/
theorem wrap_fits (x : Xlen) (v : Int) : Fits x (wrap x v) := by
  cases x <;> simp only [wrap, Fits, Xlen.half] <;> omega

/-- `wrap` leaves a value of XLEN bits alone. -/
theorem wrap_of_fits {x : Xlen} {v : Int} (h : Fits x v) : wrap x v = v := by
  cases x <;> simp only [wrap, Fits, Xlen.half] at h ⊢ <;> omega

@[simp] theorem wrap_wrap (x : Xlen) (v : Int) : wrap x (wrap x v) = wrap x v := wrap_of_fits (wrap_fits x v)

@[simp] theorem wrap_zero (x : Xlen) : wrap x 0 = 0 := by cases x <;> rfl

/-- `wrap` keeps remainders by 4. -/
theorem wrap_mod_four (x : Xlen) (v : Int) : wrap x v % 4 = v % 4 := by
  cases x <;> simp only [wrap, Xlen.half] <;> omega

@[simp] theorem wrap_stackTop (x : Xlen) : wrap x Config.stackTop = 4000 := by cases x <;> rfl

namespace Machine

/-- `tdiv` is the library's truncating division, for a positive divisor. -/
theorem tdiv_eq_tdiv (a : Int) {n : Int} (_hn : 0 < n) : tdiv a n = Int.tdiv a n := by
  unfold tdiv
  split
  · next h => exact (Int.tdiv_eq_ediv_of_nonneg h).symm
  · next h =>
    rw [← Int.tdiv_eq_ediv_of_nonneg (show 0 ≤ -a by omega), Int.neg_tdiv, neg_neg]

theorem stride_cases (rn : RegIdx) : stride rn = 4 ∨ stride rn = 8 := by
  unfold stride; split
  · exact .inr rfl
  · exact .inl rfl

theorem stride_pos (rn : RegIdx) : 0 < stride rn := by rcases stride_cases rn with h | h <;> omega

/-- A quotient by 4 or more lies within a quarter of the range. -/
theorem tdiv_bounds {x : Xlen} {a n : Int} (h : Fits x a) (hn : n = 4 ∨ n = 8) :
    -(x.half / 4) ≤ tdiv a n ∧ tdiv a n ≤ x.half / 4 := by
  unfold tdiv
  cases x <;> simp only [Fits, Xlen.half] at h ⊢ <;> rcases hn with rfl | rfl <;> split <;> omega

/-- The effective index of operands of XLEN bits has XLEN bits. -/
theorem effIndex_fits {x : Xlen} {b o n : Int} (hb : Fits x b) (ho : Fits x o) (hn : n = 4 ∨ n = 8) : Fits x (effIndex b o n) := by
  have h1 := tdiv_bounds hb hn
  have h2 := tdiv_bounds ho hn
  unfold effIndex
  cases x <;> simp only [Fits, Xlen.half] at h1 h2 ⊢ <;> omega

end Machine

end Sys2Proof
end

