-- ==== Sys2Proof/Laws/Decode.lean ====
section
/-!
SUPPORT. What decoding can answer, at both levels: an instruction whose immediate has XLEN bits, or a DecodeError cause with an `info` of XLEN bits.
-/

namespace Sys2Proof

theorem fits_of_small {x : Xlen} {v : Int} (h0 : 0 ≤ v) (h : v < 2147483648) : Fits x v := by
  cases x <;> simp only [Fits, Xlen.half] <;> omega

/-- An 18-bit immediate has XLEN bits. -/
theorem fits_of_imm18 (x : Xlen) (v : BitVec 18) : Fits x v.toInt := by
  have h1 := BitVec.le_toInt v
  have h2 := BitVec.toInt_lt (x := v)
  cases x <;> simp only [Fits, Xlen.half] at * <;> omega

/-- A failure that decoding may report: one of the DecodeError causes (60_exceptions R132), and an `info` of XLEN bits. -/
structure DecodeFailure.Proper (x : Xlen) (e : DecodeFailure) : Prop where
  info_fits : Fits x e.info
  cause_low : 1 ≤ e.cause.code.toNat
  cause_high : e.cause.code.toNat ≤ 12

theorem DecodeFailure.proper_mk {x : Xlen} {c : Cause} {info : Int} (hc : 1 ≤ c.code.toNat ∧ c.code.toNat ≤ 12) (hi : Fits x info) :
    DecodeFailure.Proper x { cause := c, info := info } := ⟨hi, hc.1, hc.2⟩

/-- The answer is a value with `P`, or a proper failure. -/
def Answers {α : Type} (x : Xlen) (P : α → Prop) (r : Except DecodeFailure α) : Prop :=
  (∃ a, r = .ok a ∧ P a) ∨ (∃ e, r = .error e ∧ e.Proper x)

theorem answers_bind {α β : Type} {x : Xlen} {P : α → Prop} {Q : β → Prop} {r : Except DecodeFailure α} {f : α → Except DecodeFailure β}
    (hr : Answers x P r) (hf : ∀ a, P a → Answers x Q (f a)) : Answers x Q (r >>= f) := by
  rcases hr with ⟨a, rfl, ha⟩ | ⟨e, rfl, he⟩
  · exact hf a ha
  · exact .inr ⟨e, rfl, he⟩

theorem answers_ok {α : Type} {x : Xlen} {P : α → Prop} {a : α} (h : P a) : Answers x P (.ok a) := .inl ⟨a, rfl, h⟩

theorem tokenPosition_fits (x : Xlen) {pos : Nat} (h : pos < 3) : Fits x (Config.tokenPosition pos) := by
  unfold Config.tokenPosition
  split <;> exact fits_of_small (by omega) (by omega)

theorem decodeReg_answers (x : Xlen) {pos : Nat} (h : pos < 3) (t : Text) : Answers x (fun _ => True) (decodeReg pos t) := by
  unfold decodeReg
  cases readRegIdx t with
  | some i => exact answers_ok trivial
  | none => exact .inr ⟨_, rfl, DecodeFailure.proper_mk (by decide) (tokenPosition_fits x h)⟩

theorem decodeImm_answers (x : Xlen) {pos : Nat} (h : pos < 3) (t : Text) : Answers x (fun c => Fits x c) (decodeImm x pos t) := by
  have bad : DecodeFailure.Proper x { cause := .badImmediateToken, info := Config.tokenPosition pos } :=
    DecodeFailure.proper_mk (by decide) (tokenPosition_fits x h)
  unfold decodeImm
  cases readInt t with
  | some c =>
    simp only
    by_cases hc : Fits x c
    · rw [if_pos hc]; exact answers_ok hc
    · rw [if_neg hc]; exact .inr ⟨_, rfl, bad⟩
  | none => exact .inr ⟨_, rfl, bad⟩

theorem operandCount_answers {α : Type} (x : Xlen) (P : α → Prop) (ts : List Text) : Answers x P (.error (operandCountFailure x ts)) :=
  .inr ⟨_, rfl, DecodeFailure.proper_mk (by decide) (wrap_fits x _)⟩

/-- The immediate of a decoded instruction has XLEN bits. -/
def Instr.ImmFits (x : Xlen) (i : Instr) : Prop := ∀ c, i.imm? = some c → Fits x c

theorem decodeOperands_answers (x : Xlen) (op : Opcode) (ts : List Text) : Answers x (Instr.ImmFits x) (decodeOperands x op ts) := by
  have rri : ∀ mk : RegIdx → RegIdx → Int → Instr, (∀ a b c, (mk a b c).imm? = some c) → Answers x (Instr.ImmFits x) (decodeRegRegImm x mk ts) := by
    intro mk hmk
    unfold decodeRegRegImm
    split
    · exact answers_bind (decodeReg_answers x (by decide) _) fun a _ => answers_bind (decodeReg_answers x (by decide) _) fun b _ =>
        answers_bind (decodeImm_answers x (by decide) _) fun c hc => answers_ok fun d hd => by
          rw [hmk] at hd; exact Option.some.inj hd ▸ hc
    · exact operandCount_answers ..
  have off : ∀ mk : Int → Instr, (∀ c, (mk c).imm? = some c) → Answers x (Instr.ImmFits x) (decodeOffset x mk ts) := by
    intro mk hmk
    unfold decodeOffset
    split
    · exact answers_bind (decodeImm_answers x (by decide) _) fun c hc => answers_ok fun d hd => by
        rw [hmk] at hd; exact Option.some.inj hd ▸ hc
    · exact operandCount_answers ..
  cases op with
  | addi => exact rri _ fun _ _ _ => rfl
  | subi => exact rri _ fun _ _ _ => rfl
  | ldur => exact rri _ fun _ _ _ => rfl
  | stur => exact rri _ fun _ _ _ => rfl
  | b => exact off _ fun _ => rfl
  | bl => exact off _ fun _ => rfl
  | add =>
    simp only [decodeOperands, decodeRegRegReg]
    split
    · exact answers_bind (decodeReg_answers x (by decide) _) fun a _ => answers_bind (decodeReg_answers x (by decide) _) fun b _ =>
        answers_bind (decodeReg_answers x (by decide) _) fun c _ => answers_ok fun d hd => by cases hd
    · exact operandCount_answers ..
  | br =>
    simp only [decodeOperands, decodeTarget]
    split
    · exact answers_bind (decodeReg_answers x (by decide) _) fun a _ => answers_ok fun d hd => by cases hd
    · exact operandCount_answers ..
  | cbz =>
    simp only [decodeOperands, decodeRegOffset]
    split
    · exact answers_bind (decodeReg_answers x (by decide) _) fun a _ => answers_bind (decodeImm_answers x (by decide) _) fun c hc =>
        answers_ok fun d hd => Option.some.inj hd ▸ hc
    · exact operandCount_answers ..

/-- `op` is the top four bits of the word. -/
theorem fieldOp_toNat (w : BitVec 32) : (fieldOp w).toNat = w.toNat / 2 ^ 28 := by
  simp [fieldOp, BitVec.extractLsb, Nat.shiftRight_eq_div_pow]; omega

/-- The opcode of a number is the one with that number. -/
theorem opcodeOfNumber_eq_some {v : BitVec 4} {op : Opcode} (h : opcodeOfNumber v = some op) : v = opcodeNumber op := by
  unfold opcodeOfNumber at h
  split at h <;> cases h <;> (apply BitVec.eq_of_toNat_eq; simpa [opcodeNumber])

theorem decodeWord_answers (x : Xlen) (w : BitVec 32) : Answers x (Instr.ImmFits x) (decodeWord w) := by
  unfold decodeWord
  cases ho : opcodeOfNumber (fieldOp w) with
  | none =>
    have := (fieldOp w).isLt
    exact .inr ⟨_, rfl, DecodeFailure.proper_mk (by decide) (fits_of_small (by omega) (by omega))⟩
  | some op =>
    simp only
    split
    · refine answers_ok fun c hc => ?_
      cases op <;> simp only [instrOfFields, Instr.imm?, Option.some.injEq, reduceCtorEq] at hc <;> subst hc <;> exact fits_of_imm18 x _
    · next hz =>
      have hn : w.toNat / 2 ^ 28 = (opcodeNumber op).toNat := by rw [← fieldOp_toNat, opcodeOfNumber_eq_some ho]
      have hlt : w.toNat < 2147483648 := by
        cases op <;> simp [reservedZero] at hz <;> simp [opcodeNumber] at hn <;> omega
      exact .inr ⟨_, rfl, DecodeFailure.proper_mk (by decide) (fits_of_small (by omega) (by omega))⟩

/-- Decoding a cell yields an instruction whose immediate has XLEN bits, or a proper failure. -/
theorem decodeCode_answers (x : Xlen) (c : Code) : Answers x (Instr.ImmFits x) (decodeCode x c) := by
  cases c with
  | word w => exact decodeWord_answers x w
  | record r =>
    simp only [decodeCode, decodeRecord]
    cases opcodeOfText r.opcode with
    | none =>
      exact .inr ⟨_, rfl, DecodeFailure.proper_mk (by decide) (wrap_fits x _)⟩
    | some op => exact decodeOperands_answers x op r.operands

end Sys2Proof
end

