-- ==== Sys2Proof/Laws/State.lean ====
section
/-!
SUPPORT. The field lemmas of the state's updates: one lemma per field per update. Later proofs rewrite with these and unfold no record.
-/

namespace Sys2Proof.Machine

/-! ## The four reserved indices are distinct (10_state R10) -/

@[simp] theorem SP_ne_PC : (RegIdx.SP = RegIdx.PC) = False := by decide
@[simp] theorem SP_ne_LR : (RegIdx.SP = RegIdx.LR) = False := by decide
@[simp] theorem SP_ne_XZR : (RegIdx.SP = RegIdx.XZR) = False := by decide
@[simp] theorem PC_ne_SP : (RegIdx.PC = RegIdx.SP) = False := by decide
@[simp] theorem PC_ne_LR : (RegIdx.PC = RegIdx.LR) = False := by decide
@[simp] theorem PC_ne_XZR : (RegIdx.PC = RegIdx.XZR) = False := by decide
@[simp] theorem LR_ne_SP : (RegIdx.LR = RegIdx.SP) = False := by decide
@[simp] theorem LR_ne_PC : (RegIdx.LR = RegIdx.PC) = False := by decide
@[simp] theorem LR_ne_XZR : (RegIdx.LR = RegIdx.XZR) = False := by decide
@[simp] theorem XZR_ne_SP : (RegIdx.XZR = RegIdx.SP) = False := by decide
@[simp] theorem XZR_ne_PC : (RegIdx.XZR = RegIdx.PC) = False := by decide
@[simp] theorem XZR_ne_LR : (RegIdx.XZR = RegIdx.LR) = False := by decide

/-! ## `setReg` -/

@[simp] theorem setReg_params (s : State) (i : RegIdx) (v : Int) : (setReg s i v).params = s.params := rfl
@[simp] theorem setReg_mem (s : State) (i : RegIdx) (v : Int) : (setReg s i v).mem = s.mem := rfl
@[simp] theorem setReg_status (s : State) (i : RegIdx) (v : Int) : (setReg s i v).status = s.status := rfl
@[simp] theorem setReg_phase (s : State) (i : RegIdx) (v : Int) : (setReg s i v).phase = s.phase := rfl
@[simp] theorem setReg_fault (s : State) (i : RegIdx) (v : Int) : (setReg s i v).fault = s.fault := rfl
@[simp] theorem setReg_spMod (s : State) (i : RegIdx) (v : Int) : (setReg s i v).spMod = s.spMod := rfl
@[simp] theorem setReg_last (s : State) (i : RegIdx) (v : Int) : (setReg s i v).last = s.last := rfl

/-- Reading back a stored register: the one that was set, and every other as before. -/
theorem storedReg_setReg (s : State) (i j : RegIdx) (v : Int) :
    storedReg (setReg s i v) j = if j = i then v else storedReg s j := by
  simp only [storedReg, setReg, Vector.get_eq_getElem, Vector.getElem_set, Fin.ext_iff]
  by_cases h : (i : Nat) = j
  · simp [h]
  · rw [if_neg h, if_neg (fun e => h e.symm)]

@[simp] theorem storedReg_setReg_self (s : State) (i : RegIdx) (v : Int) : storedReg (setReg s i v) i = v := by
  rw [storedReg_setReg, if_pos rfl]

/-! ## `writeReg` -/

@[simp] theorem writeReg_params (s : State) (i : RegIdx) (v : Int) : (writeReg s i v).params = s.params := by
  unfold writeReg; split <;> [rfl; (split <;> rfl)]
@[simp] theorem writeReg_mem (s : State) (i : RegIdx) (v : Int) : (writeReg s i v).mem = s.mem := by
  unfold writeReg; split <;> [rfl; (split <;> rfl)]
@[simp] theorem writeReg_status (s : State) (i : RegIdx) (v : Int) : (writeReg s i v).status = s.status := by
  unfold writeReg; split <;> [rfl; (split <;> rfl)]
@[simp] theorem writeReg_phase (s : State) (i : RegIdx) (v : Int) : (writeReg s i v).phase = s.phase := by
  unfold writeReg; split <;> [rfl; (split <;> rfl)]
@[simp] theorem writeReg_fault (s : State) (i : RegIdx) (v : Int) : (writeReg s i v).fault = s.fault := by
  unfold writeReg; split <;> [rfl; (split <;> rfl)]
@[simp] theorem writeReg_last (s : State) (i : RegIdx) (v : Int) : (writeReg s i v).last = s.last := by
  unfold writeReg; split <;> [rfl; (split <;> rfl)]

/-- A write to index 28 sets `sp_mod`, and no other write touches it (10_state R21). -/
theorem writeReg_spMod (s : State) (i : RegIdx) (v : Int) :
    (writeReg s i v).spMod = if i = RegIdx.SP then true else s.spMod := by
  unfold writeReg
  split
  · next h => rw [h]; rfl
  · split <;> rfl

/-- The stored entries after a register write: the destination holds `wrap v`, unless it is index 31, and every other is as before. -/
theorem storedReg_writeReg (s : State) (i j : RegIdx) (v : Int) :
    storedReg (writeReg s i v) j = if j = i ∧ i ≠ RegIdx.XZR then wrap s.params.xlen v else storedReg s j := by
  unfold writeReg
  by_cases h31 : i = RegIdx.XZR
  · simp [h31]
  · rw [if_neg h31]
    have hset : storedReg (setReg s i (wrap s.params.xlen v)) j =
        if j = i ∧ i ≠ RegIdx.XZR then wrap s.params.xlen v else storedReg s j := by
      rw [storedReg_setReg]; simp [h31]
    split
    · exact hset
    · exact hset

/-- `x[j]` after `x[i] <- v` (10_state R11, R15; 41_alu R96). -/
theorem readReg_writeReg (s : State) (i j : RegIdx) (v : Int) :
    readReg (writeReg s i v) j = if j = i ∧ i ≠ RegIdx.XZR then wrap s.params.xlen v else readReg s j := by
  unfold readReg
  rw [storedReg_writeReg]
  by_cases hj : j = RegIdx.XZR
  · subst hj
    by_cases hi : RegIdx.XZR = i
    · subst hi; simp
    · simp [hi]
  · simp [hj]

/-! ## The cell array's updates -/

@[simp] theorem writeCell_params (s : State) (k : Nat) (c : MemCell) : (writeCell s k c).params = s.params := rfl
@[simp] theorem writeCell_regs (s : State) (k : Nat) (c : MemCell) : (writeCell s k c).regs = s.regs := rfl
@[simp] theorem writeCell_mem (s : State) (k : Nat) (c : MemCell) : (writeCell s k c).mem = Memory.write s.mem k c := rfl
@[simp] theorem writeCell_status (s : State) (k : Nat) (c : MemCell) : (writeCell s k c).status = s.status := rfl
@[simp] theorem writeCell_phase (s : State) (k : Nat) (c : MemCell) : (writeCell s k c).phase = s.phase := rfl
@[simp] theorem writeCell_fault (s : State) (k : Nat) (c : MemCell) : (writeCell s k c).fault = s.fault := rfl
@[simp] theorem writeCell_spMod (s : State) (k : Nat) (c : MemCell) : (writeCell s k c).spMod = s.spMod := rfl
@[simp] theorem writeCell_last (s : State) (k : Nat) (c : MemCell) : (writeCell s k c).last = s.last := rfl

@[simp] theorem clearCells_params (s : State) (lo hi : Int) : (clearCells s lo hi).params = s.params := rfl
@[simp] theorem clearCells_regs (s : State) (lo hi : Int) : (clearCells s lo hi).regs = s.regs := rfl
@[simp] theorem clearCells_mem (s : State) (lo hi : Int) : (clearCells s lo hi).mem = Memory.clear s.mem lo hi := rfl
@[simp] theorem clearCells_status (s : State) (lo hi : Int) : (clearCells s lo hi).status = s.status := rfl
@[simp] theorem clearCells_phase (s : State) (lo hi : Int) : (clearCells s lo hi).phase = s.phase := rfl
@[simp] theorem clearCells_fault (s : State) (lo hi : Int) : (clearCells s lo hi).fault = s.fault := rfl
@[simp] theorem clearCells_spMod (s : State) (lo hi : Int) : (clearCells s lo hi).spMod = s.spMod := rfl
@[simp] theorem clearCells_last (s : State) (lo hi : Int) : (clearCells s lo hi).last = s.last := rfl

/-! ## The cycle's own updates -/

@[simp] theorem beginCycle_params (s : State) : (beginCycle s).params = s.params := rfl
@[simp] theorem beginCycle_regs (s : State) : (beginCycle s).regs = s.regs := rfl
@[simp] theorem beginCycle_mem (s : State) : (beginCycle s).mem = s.mem := rfl
@[simp] theorem beginCycle_status (s : State) : (beginCycle s).status = s.status := rfl
@[simp] theorem beginCycle_phase (s : State) : (beginCycle s).phase = s.phase := rfl
@[simp] theorem beginCycle_fault (s : State) : (beginCycle s).fault = s.fault := rfl
@[simp] theorem beginCycle_spMod (s : State) : (beginCycle s).spMod = false := rfl
@[simp] theorem beginCycle_last (s : State) : (beginCycle s).last = s.last := rfl

@[simp] theorem latch_params (s : State) (c : InstrCell) : (latch s c).params = s.params := rfl
@[simp] theorem latch_regs (s : State) (c : InstrCell) : (latch s c).regs = s.regs := rfl
@[simp] theorem latch_mem (s : State) (c : InstrCell) : (latch s c).mem = s.mem := rfl
@[simp] theorem latch_status (s : State) (c : InstrCell) : (latch s c).status = s.status := rfl
@[simp] theorem latch_phase (s : State) (c : InstrCell) : (latch s c).phase = s.phase := rfl
@[simp] theorem latch_fault (s : State) (c : InstrCell) : (latch s c).fault = s.fault := rfl
@[simp] theorem latch_spMod (s : State) (c : InstrCell) : (latch s c).spMod = s.spMod := rfl
@[simp] theorem latch_last (s : State) (c : InstrCell) : (latch s c).last = some c := rfl

@[simp] theorem startExec_params (s : State) : (startExec s).params = s.params := rfl
@[simp] theorem startExec_mem (s : State) : (startExec s).mem = s.mem := rfl
@[simp] theorem startExec_status (s : State) : (startExec s).status = s.status := rfl
@[simp] theorem startExec_phase (s : State) : (startExec s).phase = .exec := rfl
@[simp] theorem startExec_fault (s : State) : (startExec s).fault = s.fault := rfl
@[simp] theorem startExec_spMod (s : State) : (startExec s).spMod = s.spMod := rfl
@[simp] theorem startExec_last (s : State) : (startExec s).last = s.last := rfl

/-! ## Taking an event -/

/-- What taking an event is: nothing in a terminal status, and otherwise `status` and `fault` (60_exceptions R137, R138). -/
theorem takeEvent_eq (s : State) (st : Status) (f : FaultRecord) :
    takeEvent s st f = if s.status = .running then { s with status := st, fault := f } else s := by
  unfold takeEvent; cases s.status <;> simp

@[simp] theorem takeEvent_params (s : State) (st : Status) (f : FaultRecord) : (takeEvent s st f).params = s.params := by
  rw [takeEvent_eq]; split <;> rfl
@[simp] theorem takeEvent_regs (s : State) (st : Status) (f : FaultRecord) : (takeEvent s st f).regs = s.regs := by
  rw [takeEvent_eq]; split <;> rfl
@[simp] theorem takeEvent_mem (s : State) (st : Status) (f : FaultRecord) : (takeEvent s st f).mem = s.mem := by
  rw [takeEvent_eq]; split <;> rfl
@[simp] theorem takeEvent_phase (s : State) (st : Status) (f : FaultRecord) : (takeEvent s st f).phase = s.phase := by
  rw [takeEvent_eq]; split <;> rfl
@[simp] theorem takeEvent_spMod (s : State) (st : Status) (f : FaultRecord) : (takeEvent s st f).spMod = s.spMod := by
  rw [takeEvent_eq]; split <;> rfl
@[simp] theorem takeEvent_last (s : State) (st : Status) (f : FaultRecord) : (takeEvent s st f).last = s.last := by
  rw [takeEvent_eq]; split <;> rfl

/-! ## Reads depend on their field alone -/

/-- Two states with the same register file read the same. -/
theorem storedReg_congr {s t : State} (h : s.regs = t.regs) (i : RegIdx) : storedReg s i = storedReg t i := by
  unfold storedReg; rw [h]

/-- Two states with the same register file read the same. -/
theorem readReg_congr {s t : State} (h : s.regs = t.regs) (i : RegIdx) : readReg s i = readReg t i := by
  unfold readReg; rw [storedReg_congr h]

/-- Two states with the same cell list read the same cells. -/
theorem readCell_congr {s t : State} (h : s.mem = t.mem) (k : Nat) : readCell s k = readCell t k := by
  unfold readCell; rw [h]

@[simp] theorem readReg_takeEvent (s : State) (st : Status) (f : FaultRecord) (i : RegIdx) :
    readReg (takeEvent s st f) i = readReg s i := readReg_congr (takeEvent_regs s st f) i
@[simp] theorem readReg_beginCycle (s : State) (i : RegIdx) : readReg (beginCycle s) i = readReg s i := rfl
@[simp] theorem readReg_latch (s : State) (c : InstrCell) (i : RegIdx) : readReg (latch s c) i = readReg s i := rfl
@[simp] theorem readReg_writeCell (s : State) (k : Nat) (c : MemCell) (i : RegIdx) : readReg (writeCell s k c) i = readReg s i := rfl
@[simp] theorem readReg_clearCells (s : State) (lo hi : Int) (i : RegIdx) : readReg (clearCells s lo hi) i = readReg s i := rfl

end Sys2Proof.Machine
end

