-- ==== Sys2Proof/Laws/Memory.lean ====
section
/-!
SUPPORT. The laws of the cell list: reading after a write or a clearing, and every operation keeping the canonical form, the array's bound and
any property of the cells themselves.
-/

namespace Sys2Proof.Machine

/-! ## Reading after an update -/

theorem Memory.read_consCell (m : Memory) (k j : Nat) (c : MemCell) (hm : k = j → Memory.read m j = .empty) :
    Memory.read (Memory.consCell k c m) j = if j = k then c else Memory.read m j := by
  unfold Memory.consCell
  by_cases hjk : j = k
  · subst hjk
    by_cases hc : c = .empty
    · simp [hc, hm rfl]
    · simp [hc, Memory.read]
  · have hkj : ¬ k = j := fun h => hjk h.symm
    by_cases hc : c = .empty <;> simp [hc, Memory.read, hjk, hkj]

/-- Below the first index of a canonical list there is nothing. -/
theorem Memory.read_eq_empty_of_lt {m : Memory} {k : Nat} (h : ∀ e ∈ m, k < e.1) : Memory.read m k = .empty := by
  induction m with
  | nil => rfl
  | cons e m ih =>
    obtain ⟨j, c⟩ := e
    have hj : k < j := h (j, c) (by simp)
    rw [Memory.read, if_neg (by omega), ih (fun e he => h e (by simp [he]))]

/-- A read after a write: the cell written, and every other as before. -/
theorem Memory.read_write {m : Memory} (hm : Memory.wf m) (k j : Nat) (c : MemCell) :
    Memory.read (Memory.write m k c) j = if j = k then c else Memory.read m j := by
  induction m with
  | nil => rw [Memory.write, Memory.read_consCell _ _ _ _ (fun _ => rfl)]
  | cons e m ih =>
    obtain ⟨i, d⟩ := e
    obtain ⟨hlt, hp⟩ := List.pairwise_cons.1 hm.1
    have hm' : Memory.wf m := ⟨hp, fun e he => hm.2 e (by simp [he])⟩
    rw [Memory.write]
    split
    · rw [Memory.read, Memory.read, ih hm']
      by_cases hij : i = j
      · subst hij; rw [if_pos rfl, if_pos rfl, if_neg (by omega)]
      · rw [if_neg hij, if_neg hij]
    · split
      · next hik =>
        subst hik
        rw [Memory.read_consCell _ _ _ _ (fun h => h ▸ Memory.read_eq_empty_of_lt hlt), Memory.read]
        by_cases hji : j = i
        · rw [if_pos hji, if_pos hji]
        · rw [if_neg hji, if_neg hji, if_neg (fun h => hji h.symm)]
      · next h1 h2 =>
        refine Memory.read_consCell _ _ _ _ (fun h => Memory.read_eq_empty_of_lt ?_)
        intro e he
        rcases List.mem_cons.1 he with rfl | he
        · simp only; omega
        · have := hlt e he; simp only at this; omega

/-- A read after a clearing: empty inside the range, and as before outside it. -/
theorem Memory.read_clear (m : Memory) (lo hi : Int) (j : Nat) :
    Memory.read (Memory.clear m lo hi) j = if lo ≤ (j : Int) ∧ (j : Int) ≤ hi then .empty else Memory.read m j := by
  induction m with
  | nil => simp [Memory.clear, Memory.read]
  | cons e m ih =>
    obtain ⟨i, c⟩ := e
    simp only [Memory.clear] at ih ⊢
    by_cases hin : lo ≤ (i : Int) ∧ (i : Int) ≤ hi
    · rw [List.filter_cons_of_neg (by simp [hin]), ih, Memory.read]
      by_cases hij : i = j
      · subst hij; rw [if_pos hin, if_pos hin]
      · rw [if_neg hij]
    · rw [List.filter_cons_of_pos (by simp; omega), Memory.read, Memory.read, ih]
      by_cases hij : i = j
      · subst hij; rw [if_pos rfl, if_pos rfl, if_neg hin]
      · rw [if_neg hij, if_neg hij]

/-! ## A property of the entries is kept -/

/-- Every entry after a write is an old one or the one written. -/
theorem Memory.mem_write {m : Memory} {k : Nat} {c : MemCell} {e : Nat × MemCell} (h : e ∈ Memory.write m k c) :
    e ∈ m ∨ (e = (k, c) ∧ c ≠ .empty) := by
  have cons : ∀ m' : Memory, e ∈ Memory.consCell k c m' → e ∈ m' ∨ (e = (k, c) ∧ c ≠ .empty) := by
    intro m' hm'
    unfold Memory.consCell at hm'
    split at hm'
    · exact .inl hm'
    · next hc => exact (List.mem_cons.1 hm').elim (fun he => .inr ⟨he, hc⟩) .inl
  induction m with
  | nil => exact cons [] h
  | cons a m ih =>
    obtain ⟨i, d⟩ := a
    rw [Memory.write] at h
    split at h
    · rcases List.mem_cons.1 h with rfl | h
      · exact .inl (by simp)
      · exact (ih h).imp_left (fun h => by simp [h])
    · split at h
      · exact (cons m h).imp_left (fun h => by simp [h])
      · exact cons _ h

/-- Every entry after a clearing is an old one. -/
theorem Memory.mem_clear {m : Memory} {lo hi : Int} {e : Nat × MemCell} (h : e ∈ Memory.clear m lo hi) : e ∈ m :=
  (List.mem_filter.1 h).1

/-- A property of all entries survives a write that meets it. -/
theorem Memory.forall_write {P : Nat × MemCell → Prop} {m : Memory} {k : Nat} {c : MemCell} (hm : ∀ e ∈ m, P e) (hc : P (k, c)) :
    ∀ e ∈ Memory.write m k c, P e := by
  intro e he
  rcases Memory.mem_write he with h | ⟨rfl, -⟩
  · exact hm e h
  · exact hc

/-- A property of all entries survives a clearing. -/
theorem Memory.forall_clear {P : Nat × MemCell → Prop} {m : Memory} {lo hi : Int} (hm : ∀ e ∈ m, P e) :
    ∀ e ∈ Memory.clear m lo hi, P e := fun e he => hm e (Memory.mem_clear he)

/-! ## The canonical form is kept -/

theorem Memory.wf_nil : Memory.wf [] := ⟨.nil, by simp⟩

theorem Memory.wf_consCell {m : Memory} {k : Nat} {c : MemCell} (hm : Memory.wf m) (hk : ∀ e ∈ m, k < e.1) :
    Memory.wf (Memory.consCell k c m) := by
  unfold Memory.consCell
  split
  · exact hm
  · next hc =>
    refine ⟨List.pairwise_cons.2 ⟨hk, hm.1⟩, fun e he => ?_⟩
    rcases List.mem_cons.1 he with rfl | he
    · exact hc
    · exact hm.2 e he

/-- A write keeps the canonical form. -/
theorem Memory.wf_write {m : Memory} (hm : Memory.wf m) (k : Nat) (c : MemCell) : Memory.wf (Memory.write m k c) := by
  induction m with
  | nil => exact Memory.wf_consCell Memory.wf_nil (by simp)
  | cons e m ih =>
    obtain ⟨i, d⟩ := e
    obtain ⟨hlt, hp⟩ := List.pairwise_cons.1 hm.1
    have hm' : Memory.wf m := ⟨hp, fun e he => hm.2 e (by simp [he])⟩
    rw [Memory.write]
    split
    · next hik =>
      refine ⟨List.pairwise_cons.2 ⟨Memory.forall_write hlt hik, (ih hm').1⟩, fun e he => ?_⟩
      rcases List.mem_cons.1 he with rfl | he
      · exact hm.2 _ (by simp)
      · exact (ih hm').2 e he
    · split
      · next h => exact Memory.wf_consCell hm' (fun e he => h ▸ hlt e he)
      · next h1 h2 =>
        refine Memory.wf_consCell hm (fun e he => ?_)
        rcases List.mem_cons.1 he with rfl | he
        · simp only; omega
        · have := hlt e he; simp only at this; omega

/-- A clearing keeps the canonical form. -/
theorem Memory.wf_clear {m : Memory} (hm : Memory.wf m) (lo hi : Int) : Memory.wf (Memory.clear m lo hi) :=
  ⟨hm.1.filter _, fun e he => hm.2 e (Memory.mem_clear he)⟩

/-- A cell that is read and is not empty is an entry of the list. -/
theorem Memory.mem_of_read {m : Memory} {k : Nat} (h : Memory.read m k ≠ .empty) : (k, Memory.read m k) ∈ m := by
  induction m with
  | nil => exact absurd rfl h
  | cons e m ih =>
    obtain ⟨i, c⟩ := e
    rw [Memory.read] at h ⊢
    split
    · next hik => subst hik; simp
    · next hik => rw [if_neg hik] at h; simp [ih h]

/-- In a canonical list, the cell of a listed index is the listed one. -/
theorem Memory.read_of_mem {m : Memory} (hm : Memory.wf m) {k : Nat} {c : MemCell} (h : (k, c) ∈ m) : Memory.read m k = c := by
  induction m with
  | nil => cases h
  | cons e m ih =>
    obtain ⟨i, d⟩ := e
    obtain ⟨hlt, hp⟩ := List.pairwise_cons.1 hm.1
    rw [Memory.read]
    rcases List.mem_cons.1 h with h | h
    · cases h; rw [if_pos rfl]
    · have := hlt _ h
      rw [if_neg (by simp only at this; omega), ih ⟨hp, fun e he => hm.2 e (by simp [he])⟩ h]

/-! ## The same at the state's cells -/

/-- The cells after `cell[k] <- c`. -/
theorem readCell_writeCell {s : State} (hm : MemCanonical s) (k j : Nat) (c : MemCell) :
    readCell (writeCell s k c) j = if j = k then c else readCell s j := Memory.read_write hm k j c

/-- The cells after BL's clearing. -/
theorem readCell_clearCells (s : State) (lo hi : Int) (j : Nat) :
    readCell (clearCells s lo hi) j = if lo ≤ (j : Int) ∧ (j : Int) ≤ hi then .empty else readCell s j := Memory.read_clear s.mem lo hi j

/-- Reset memory is canonical. -/
theorem resetWith_mem_wf (p : Config.Params) : MemCanonical (State.resetWith p) := Memory.wf_nil

end Sys2Proof.Machine
end

