-- ==== Sys2Proof/Laws/Ops.lean ====
section
/-!
SUPPORT. For each shared operation, what it can do: the access primitives, the stack check, and the end of a cycle. Callers cite these and unfold no
operation.
-/

namespace Sys2Proof.Machine

/-! ## The access primitives -/

/-- A good read: the index is in the array and the cell holds the value. -/
theorem memRead_ok_iff (s : State) (k : Int) (v : Int) :
    memRead s k = .ok v ↔ CellExists s k ∧ ∃ a, readCell s k.toNat = .data a v := by
  unfold memRead CellExists
  by_cases h : 0 ≤ k ∧ k < (s.params.memCells : Int)
  · rw [if_pos h]
    cases hc : readCell s k.toNat <;> simp [h]
  · rw [if_neg h]; simp [h]

/-- A failed read, its two causes in order. -/
theorem memRead_error_iff (s : State) (k info : Int) (c : Cause) :
    memRead s k = .error (c, info) ↔ info = k ∧
      (¬ CellExists s k ∧ c = .memIndexOutOfRange ∨ CellExists s k ∧ (∀ a v, readCell s k.toNat ≠ .data a v) ∧ c = .loadFromNonData) := by
  unfold memRead CellExists
  by_cases h : 0 ≤ k ∧ k < (s.params.memCells : Int)
  · rw [if_pos h]
    cases hc : readCell s k.toNat <;> simp [h, eq_comm, and_comm]
  · rw [if_neg h]; simp [h, eq_comm, and_comm]

/-- A good write: the index is in the array, the cell is no instruction, and the data cell is written. -/
theorem memWrite_ok_iff (s s' : State) (k n : Int) (v : Int) :
    memWrite s k n v = .ok s' ↔ CellExists s k ∧ (∀ c, readCell s k.toNat ≠ .instr c) ∧ s' = writeCell s k.toNat (.data (k * n).toNat v) := by
  unfold memWrite CellExists
  by_cases h : 0 ≤ k ∧ k < (s.params.memCells : Int)
  · rw [if_pos h]
    cases hc : readCell s k.toNat <;> simp [h, eq_comm]
  · rw [if_neg h]; simp [h]

/-- A failed write, its two causes in order. -/
theorem memWrite_error_iff (s : State) (k n info : Int) (v : Int) (c : Cause) :
    memWrite s k n v = .error (c, info) ↔ info = k ∧
      (¬ CellExists s k ∧ c = .memIndexOutOfRange ∨ CellExists s k ∧ (∃ d, readCell s k.toNat = .instr d) ∧ c = .storeToInstruction) := by
  unfold memWrite CellExists
  by_cases h : 0 ≤ k ∧ k < (s.params.memCells : Int)
  · rw [if_pos h]
    cases hc : readCell s k.toNat <;> simp [h, eq_comm, and_comm]
  · rw [if_neg h]; simp [h, eq_comm, and_comm]

/-! ## The stack check -/

/-- No violation is exactly an SP inside the window and a multiple of 8. -/
theorem spViolation_none_iff (p : Config.Params) (v : Int) : spViolation p v = none ↔ SpOk p v := by
  unfold spViolation
  split
  · simp; omega
  · split
    · simp; omega
    · simp; omega

/-- The cause of a violation: the window first, then the alignment (44_sp_checker R121, R123). -/
theorem spViolation_some {p : Config.Params} {v : Int} {c : Cause} (h : spViolation p v = some c) :
    c = if v < stackBase p ∨ Config.stackTop < v then .outOfWindow else .spMisaligned := by
  unfold spViolation at h
  split at h
  · next hw => rw [if_pos hw]; exact (Option.some.inj h).symm
  · next hw =>
    rw [if_neg hw]
    split at h
    · exact (Option.some.inj h).symm
    · cases h

/-- The check is nothing, or a StackFault on a bad SP that this cycle wrote. -/
theorem checkSp_cases (s : State) (pc0 : Int) :
    (checkSp s pc0 = s ∧ (s.spMod = true → SpOk s.params (sp s))) ∨
      (s.spMod = true ∧ ∃ c, spViolation s.params (sp s) = some c ∧ checkSp s pc0 = stackFault s c pc0 (sp s)) := by
  unfold checkSp
  cases hm : s.spMod
  · exact .inl ⟨rfl, by simp⟩
  · cases hv : spViolation s.params (sp s) with
    | none => exact .inl ⟨rfl, fun _ => (spViolation_none_iff _ _).1 hv⟩
    | some c => exact .inr ⟨rfl, c, rfl, rfl⟩

theorem checkSp_of_not_spMod {s : State} (h : s.spMod = false) (pc0 : Int) : checkSp s pc0 = s := by simp [checkSp, h]

theorem checkSp_of_ok {s : State} (h : SpOk s.params (sp s)) (pc0 : Int) : checkSp s pc0 = s := by
  unfold checkSp; rw [(spViolation_none_iff _ _).2 h]; split <;> rfl

@[simp] theorem checkSp_params (s : State) (a : Int) : (checkSp s a).params = s.params := by
  rcases checkSp_cases s a with ⟨h, -⟩ | ⟨-, c, -, h⟩ <;> rw [h]; exact takeEvent_params ..
@[simp] theorem checkSp_regs (s : State) (a : Int) : (checkSp s a).regs = s.regs := by
  rcases checkSp_cases s a with ⟨h, -⟩ | ⟨-, c, -, h⟩ <;> rw [h]; exact takeEvent_regs ..
@[simp] theorem checkSp_mem (s : State) (a : Int) : (checkSp s a).mem = s.mem := by
  rcases checkSp_cases s a with ⟨h, -⟩ | ⟨-, c, -, h⟩ <;> rw [h]; exact takeEvent_mem ..
@[simp] theorem checkSp_phase (s : State) (a : Int) : (checkSp s a).phase = s.phase := by
  rcases checkSp_cases s a with ⟨h, -⟩ | ⟨-, c, -, h⟩ <;> rw [h]; exact takeEvent_phase ..
@[simp] theorem checkSp_spMod (s : State) (a : Int) : (checkSp s a).spMod = s.spMod := by
  rcases checkSp_cases s a with ⟨h, -⟩ | ⟨-, c, -, h⟩ <;> rw [h]; exact takeEvent_spMod ..
@[simp] theorem checkSp_last (s : State) (a : Int) : (checkSp s a).last = s.last := by
  rcases checkSp_cases s a with ⟨h, -⟩ | ⟨-, c, -, h⟩ <;> rw [h]; exact takeEvent_last ..

/-! ## The end of a cycle -/

/-- The register file after stage 4 of a non-branch cycle. -/
theorem storedReg_updatePcNext (s : State) (pc0 : Int) (j : RegIdx) :
    storedReg (updatePcNext s pc0) j = if j = .PC ∧ pc s ≠ 0 then wrap s.params.xlen (pc s + 4) else storedReg s j := by
  unfold updatePcNext
  by_cases h : pc s = 0
  · rw [if_pos h, halt, storedReg_congr (takeEvent_regs ..)]; simp [h]
  · rw [if_neg h, storedReg_writeReg]; simp [h, Config.instrBytes]

@[simp] theorem updatePcNext_params (s : State) (a : Int) : (updatePcNext s a).params = s.params := by
  unfold updatePcNext; split <;> simp [halt]
@[simp] theorem updatePcNext_mem (s : State) (a : Int) : (updatePcNext s a).mem = s.mem := by
  unfold updatePcNext; split <;> simp [halt]
@[simp] theorem updatePcNext_phase (s : State) (a : Int) : (updatePcNext s a).phase = s.phase := by
  unfold updatePcNext; split <;> simp [halt]
@[simp] theorem updatePcNext_spMod (s : State) (a : Int) : (updatePcNext s a).spMod = s.spMod := by
  unfold updatePcNext; split <;> simp [halt, writeReg_spMod]
@[simp] theorem updatePcNext_last (s : State) (a : Int) : (updatePcNext s a).last = s.last := by
  unfold updatePcNext; split <;> simp [halt]

@[simp] theorem updatePcBranch_params (s : State) (a : Int) : (updatePcBranch s a).params = s.params := by
  unfold updatePcBranch; split <;> simp [halt]
@[simp] theorem updatePcBranch_regs (s : State) (a : Int) : (updatePcBranch s a).regs = s.regs := by
  unfold updatePcBranch; split <;> simp [halt]
@[simp] theorem updatePcBranch_mem (s : State) (a : Int) : (updatePcBranch s a).mem = s.mem := by
  unfold updatePcBranch; split <;> simp [halt]
@[simp] theorem updatePcBranch_phase (s : State) (a : Int) : (updatePcBranch s a).phase = s.phase := by
  unfold updatePcBranch; split <;> simp [halt]
@[simp] theorem updatePcBranch_spMod (s : State) (a : Int) : (updatePcBranch s a).spMod = s.spMod := by
  unfold updatePcBranch; split <;> simp [halt]
@[simp] theorem updatePcBranch_last (s : State) (a : Int) : (updatePcBranch s a).last = s.last := by
  unfold updatePcBranch; split <;> simp [halt]

@[simp] theorem retireNext_params (s : State) (a : Int) : (retireNext s a).params = s.params := by simp [retireNext]
@[simp] theorem retireNext_mem (s : State) (a : Int) : (retireNext s a).mem = s.mem := by simp [retireNext]
@[simp] theorem retireNext_phase (s : State) (a : Int) : (retireNext s a).phase = s.phase := by simp [retireNext]
@[simp] theorem retireNext_spMod (s : State) (a : Int) : (retireNext s a).spMod = s.spMod := by simp [retireNext]
@[simp] theorem retireNext_last (s : State) (a : Int) : (retireNext s a).last = s.last := by simp [retireNext]

@[simp] theorem retireBranch_params (s : State) (a : Int) : (retireBranch s a).params = s.params := by simp [retireBranch]
@[simp] theorem retireBranch_regs (s : State) (a : Int) : (retireBranch s a).regs = s.regs := by simp [retireBranch]
@[simp] theorem retireBranch_mem (s : State) (a : Int) : (retireBranch s a).mem = s.mem := by simp [retireBranch]
@[simp] theorem retireBranch_phase (s : State) (a : Int) : (retireBranch s a).phase = s.phase := by simp [retireBranch]
@[simp] theorem retireBranch_spMod (s : State) (a : Int) : (retireBranch s a).spMod = s.spMod := by simp [retireBranch]
@[simp] theorem retireBranch_last (s : State) (a : Int) : (retireBranch s a).last = s.last := by simp [retireBranch]

/-- The register file after a non-branch cycle. -/
theorem storedReg_retireNext (s : State) (pc0 : Int) (j : RegIdx) :
    storedReg (retireNext s pc0) j = if j = .PC ∧ pc s ≠ 0 then wrap s.params.xlen (pc s + 4) else storedReg s j := by
  rw [retireNext, storedReg_congr (checkSp_regs ..), storedReg_updatePcNext]

/-- The register file after a branch-class cycle is the handler's. -/
theorem storedReg_retireBranch (s : State) (pc0 : Int) (j : RegIdx) : storedReg (retireBranch s pc0) j = storedReg s j :=
  storedReg_congr (retireBranch_regs s pc0) j

/-- An event leaves the status and the fault record alone, or ends the run with the record it brings. -/
theorem takeEvent_status_cases (s : State) (st : Status) (f : FaultRecord) :
    takeEvent s st f = s ∧ s.status ≠ .running ∨ s.status = .running ∧ takeEvent s st f = { s with status := st, fault := f } := by
  rw [takeEvent_eq]
  by_cases h : s.status = .running
  · rw [if_pos h]; exact .inr ⟨h, rfl⟩
  · rw [if_neg h]; exact .inl ⟨rfl, h⟩

/-! ## Nothing else is done by an instruction -/

/-- An ALU instruction rejects index 31, or writes its destination and ends the cycle. -/
theorem aluResult_cases (rd : RegIdx) (v : Int) (s : State) :
    aluResult rd v s = decodeError s .writeToXzr (pc s) 31 ∨ (rd ≠ .XZR ∧ aluResult rd v s = retireNext (writeReg s rd v) (pc s)) := by
  unfold aluResult
  by_cases h : rd = .XZR
  · rw [if_pos h]; exact .inl rfl
  · rw [if_neg h]; exact .inr ⟨h, rfl⟩

/-- What an instruction can do to `s`: raise a DecodeError, write its destination, store one data cell, jump, do nothing (CBZ not taken), or unwind (BL);
each but the first ends with stages 4 and 5. -/
theorem exec_cases (i : Instr) (s : State) : ∃ t, exec i s = .next t ∧
    ((∃ c info, t = decodeError s c (pc s) info ∧
        (c = .writeToXzr ∧ info = 31 ∨
          (c = .memIndexOutOfRange ∨ c = .loadFromNonData ∨ c = .storeToInstruction) ∧
            ∃ rn imm, i.imm? = some imm ∧ info = operandIndex s rn imm)) ∨
      (∃ rd v, destReg? i = some rd ∧ rd ≠ .XZR ∧ t = retireNext (writeReg s rd v) (pc s)) ∨
      (∃ rd rn imm, i = .stur rd rn imm ∧ CellExists s (operandIndex s rn imm) ∧
        (∀ c, readCell s (operandIndex s rn imm).toNat ≠ .instr c) ∧
        t = retireNext (writeCell s (operandIndex s rn imm).toNat (.data (operandIndex s rn imm * stride rn).toNat (readReg s rd))) (pc s)) ∨
      (∃ v, isJump i = true ∧ t = retireBranch (writeReg s .PC v) (pc s)) ∨
      (isJump i = true ∧ t = retireBranch s (pc s)) ∨
      (∃ imm, i = .bl imm ∧
        t = retireBranch (writeReg (writeReg (clearCells s (clearLo s) clearHi) .PC (lr s + imm)) .SP Config.stackTop) (pc s))) := by
  cases i with
  | addi rd rn imm => exact ⟨_, rfl, (aluResult_cases rd _ s).imp (fun h => ⟨_, _, h, .inl ⟨rfl, rfl⟩⟩) (fun h => .inl ⟨rd, _, rfl, h⟩)⟩
  | add rd rn rm => exact ⟨_, rfl, (aluResult_cases rd _ s).imp (fun h => ⟨_, _, h, .inl ⟨rfl, rfl⟩⟩) (fun h => .inl ⟨rd, _, rfl, h⟩)⟩
  | subi rd rn imm => exact ⟨_, rfl, (aluResult_cases rd _ s).imp (fun h => ⟨_, _, h, .inl ⟨rfl, rfl⟩⟩) (fun h => .inl ⟨rd, _, rfl, h⟩)⟩
  | b imm => exact ⟨_, rfl, .inr (.inr (.inr (.inl ⟨_, rfl, rfl⟩)))⟩
  | bl imm => exact ⟨_, rfl, .inr (.inr (.inr (.inr (.inr ⟨imm, rfl, rfl⟩))))⟩
  | br rd => exact ⟨_, rfl, .inr (.inr (.inr (.inl ⟨_, rfl, rfl⟩)))⟩
  | cbz rd imm =>
    refine ⟨_, rfl, ?_⟩
    split
    · exact .inr (.inr (.inr (.inl ⟨_, rfl, rfl⟩)))
    · exact .inr (.inr (.inr (.inr (.inl ⟨rfl, rfl⟩))))
  | ldur rd rn imm =>
    simp only [exec, execLdur]
    by_cases h : rd = .XZR
    · rw [if_pos h]; exact ⟨_, rfl, .inl ⟨_, _, rfl, .inl ⟨rfl, rfl⟩⟩⟩
    · rw [if_neg h]
      cases hr : memRead s (operandIndex s rn imm) with
      | ok v => exact ⟨_, rfl, .inr (.inl ⟨rd, v, rfl, h, rfl⟩)⟩
      | error e =>
        obtain ⟨c, info⟩ := e
        obtain ⟨rfl, hc⟩ := (memRead_error_iff ..).1 hr
        refine ⟨_, rfl, .inl ⟨c, _, rfl, .inr ⟨?_, rn, imm, rfl, rfl⟩⟩⟩
        rcases hc with ⟨-, rfl⟩ | ⟨-, -, rfl⟩ <;> simp
  | stur rd rn imm =>
    simp only [exec, execStur]
    cases hr : memWrite s (operandIndex s rn imm) (stride rn) (readReg s rd) with
    | ok s' =>
      obtain ⟨h1, h2, rfl⟩ := (memWrite_ok_iff ..).1 hr
      exact ⟨_, rfl, .inr (.inr (.inl ⟨rd, rn, imm, rfl, h1, h2, rfl⟩))⟩
    | error e =>
      obtain ⟨c, info⟩ := e
      obtain ⟨rfl, hc⟩ := (memWrite_error_iff ..).1 hr
      refine ⟨_, rfl, .inl ⟨c, _, rfl, .inr ⟨?_, rn, imm, rfl, rfl⟩⟩⟩
      rcases hc with ⟨-, rfl⟩ | ⟨-, -, rfl⟩ <;> simp

/-- What a step can do: nothing, the halt on a pc of 0, a fetch that ends the run, or the fetched cell's decode error or instruction. -/
theorem step_cases (s : State) :
    (¬ Enabled s ∧ step s = .next s) ∨
      (Enabled s ∧ pc s = 0 ∧ step s = .next (halt (beginCycle s) .haltedPcZero (pc s))) ∨
      (Enabled s ∧ pc s ≠ 0 ∧
        ((∃ c info, fetchCell s (pc s) = .error c info ∧ step s = .next (decodeError (beginCycle s) c (pc s) info)) ∨
          (fetchCell s (pc s) = .endOfProgram ∧ step s = .next (halt (beginCycle s) .haltedEndOfProgram (pc s))) ∨
          (∃ c e, fetchCell s (pc s) = .instr c ∧ decodeCode s.params.xlen c.code = .error e ∧
            step s = .next (decodeError (latch (beginCycle s) c) e.cause (pc s) e.info)) ∨
          (∃ c i, fetchCell s (pc s) = .instr c ∧ decodeCode s.params.xlen c.code = .ok i ∧
            step s = exec i (latch (beginCycle s) c)))) := by
  unfold step contEvent
  by_cases hen : Enabled s
  · rw [if_pos hen]
    refine .inr ?_
    unfold cycle
    by_cases hp : pc s = 0
    · rw [if_pos hp]; exact .inl ⟨hen, hp, rfl⟩
    · rw [if_neg hp]
      refine .inr ⟨hen, hp, ?_⟩
      cases hf : fetchCell s (pc s) with
      | error c info => exact .inl ⟨c, info, rfl, rfl⟩
      | endOfProgram => exact .inr (.inl ⟨rfl, rfl⟩)
      | instr c =>
        simp only [runCell, latch_params, beginCycle_params]
        cases hd : decodeCode s.params.xlen c.code with
        | error e => exact .inr (.inr (.inl ⟨c, e, rfl, hd, rfl⟩))
        | ok i => exact .inr (.inr (.inr ⟨c, i, rfl, hd, rfl⟩))
  · rw [if_neg hen]; exact .inl ⟨hen, rfl⟩

/-- What a fetch yields, read off the cell (40_fetch_decode R72). -/
theorem fetchCell_instr_iff (s : State) (pc0 : Int) (c : InstrCell) :
    fetchCell s pc0 = .instr c ↔ pc0 % 4 = 0 ∧ CellExists s (fetchIndex pc0) ∧ readCell s (fetchIndex pc0).toNat = .instr c := by
  unfold fetchCell CellExists
  by_cases hm : pc0 % Config.instrBytes = 0
  · rw [if_neg (by simpa using hm)]
    simp only [Config.instrBytes] at hm
    by_cases he : 0 ≤ fetchIndex pc0 ∧ fetchIndex pc0 < (s.params.memCells : Int)
    · rw [if_pos he]; cases hc : readCell s (fetchIndex pc0).toNat <;> simp [hm, he]
    · rw [if_neg he]; simp [he]
  · rw [if_pos hm]
    simp only [Config.instrBytes] at hm
    simp [hm]

end Sys2Proof.Machine
end

