-- ==== Sys2Proof/Laws/Events.lean ====
section
/-!
SUPPORT. Where a DecodeError comes from: stages 4 and 5 raise none, so an instruction that ends in one raised it before its first write.
-/

namespace Sys2Proof.Machine

theorem checkSp_not_aborted {s : State} (h : s.status ≠ .abortedDecodeError) (pc0 : Int) : (checkSp s pc0).status ≠ .abortedDecodeError := by
  unfold checkSp
  split
  · split
    · unfold stackFault takeEvent; split <;> simp_all
    · exact h
  · exact h

theorem halt_not_aborted {s : State} (h : s.status ≠ .abortedDecodeError) (pc0 : Int) :
    (halt s .haltedPcZero pc0).status ≠ .abortedDecodeError := by
  unfold halt takeEvent
  split <;> simp_all

/-- Stages 4 and 5 of a non-branch instruction raise no DecodeError. -/
theorem retireNext_not_aborted {s : State} (h : s.status ≠ .abortedDecodeError) (pc0 : Int) :
    (retireNext s pc0).status ≠ .abortedDecodeError := by
  unfold retireNext updatePcNext
  apply checkSp_not_aborted
  split_ifs
  · exact halt_not_aborted h _
  · simpa using h

/-- Stages 4 and 5 of a branch-class instruction raise no DecodeError. -/
theorem retireBranch_not_aborted {s : State} (h : s.status ≠ .abortedDecodeError) (pc0 : Int) :
    (retireBranch s pc0).status ≠ .abortedDecodeError := by
  unfold retireBranch updatePcBranch
  apply checkSp_not_aborted
  split_ifs
  · exact halt_not_aborted h _
  · exact h

/-- The three ways an instruction raises a DecodeError: a destination of 31, or the refusal of its load or of its store. -/
theorem exec_aborted {s t : State} {i : Instr} (hr : s.status = .running) (he : exec i s = .next t) (ht : t.status = .abortedDecodeError) :
    ∃ c v, t = decodeError s c (pc s) v ∧
      ((c = .writeToXzr ∧ v = 31 ∧ destReg? i = some .XZR) ∨
        (∃ rd rn imm, i = .ldur rd rn imm ∧ rd ≠ .XZR ∧ memRead s (operandIndex s rn imm) = .error (c, v)) ∨
        (∃ rd rn imm, i = .stur rd rn imm ∧ memWrite s (operandIndex s rn imm) (stride rn) (readReg s rd) = .error (c, v))) := by
  have hn : s.status ≠ .abortedDecodeError := by rw [hr]; decide
  have alu : ∀ rd v, aluResult rd v s = t → destReg? i = some rd →
      ∃ c v, t = decodeError s c (pc s) v ∧ c = .writeToXzr ∧ v = 31 ∧ destReg? i = some .XZR := by
    intro rd v h hd
    unfold aluResult at h
    split_ifs at h with hx
    · exact ⟨_, _, h.symm, rfl, rfl, hx ▸ hd⟩
    · subst h; exact (retireNext_not_aborted (s := writeReg s rd v) (by simpa using hn) _ ht).elim
  cases i with
  | addi rd rn imm => injection he with he; obtain ⟨c, v, h, h'⟩ := alu _ _ he rfl; exact ⟨c, v, h, .inl h'⟩
  | add rd rn rm => injection he with he; obtain ⟨c, v, h, h'⟩ := alu _ _ he rfl; exact ⟨c, v, h, .inl h'⟩
  | subi rd rn imm => injection he with he; obtain ⟨c, v, h, h'⟩ := alu _ _ he rfl; exact ⟨c, v, h, .inl h'⟩
  | b imm => injection he with he; subst he; exact (retireBranch_not_aborted (s := writeReg s _ _) (by simpa using hn) _ ht).elim
  | bl imm =>
    injection he with he
    subst he
    exact (retireBranch_not_aborted (s := writeReg (writeReg (clearCells s _ _) _ _) _ _) (by simpa using hn) _ ht).elim
  | br rd => injection he with he; subst he; exact (retireBranch_not_aborted (s := writeReg s _ _) (by simpa using hn) _ ht).elim
  | cbz rd imm =>
    injection he with he
    subst he
    refine (retireBranch_not_aborted ?_ _ ht).elim
    split_ifs
    · simpa using hn
    · exact hn
  | ldur rd rn imm =>
    simp only [exec, execLdur] at he
    split_ifs at he with hx
    · injection he with he; exact ⟨_, _, he.symm, .inl ⟨rfl, rfl, by rw [hx]; rfl⟩⟩
    · cases hm : memRead s (operandIndex s rn imm) with
      | ok v => rw [hm] at he; injection he with he; subst he; exact (retireNext_not_aborted (s := writeReg s _ _) (by simpa using hn) _ ht).elim
      | error e => rw [hm] at he; injection he with he; exact ⟨_, _, he.symm, .inr (.inl ⟨rd, rn, imm, rfl, hx, hm⟩)⟩
  | stur rd rn imm =>
    simp only [exec, execStur] at he
    cases hm : memWrite s (operandIndex s rn imm) (stride rn) (readReg s rd) with
    | ok s' =>
      rw [hm] at he
      injection he with he
      subst he
      obtain ⟨-, -, rfl⟩ := (memWrite_ok_iff ..).1 hm
      exact (retireNext_not_aborted (s := writeCell s _ _) hn _ ht).elim
    | error e => rw [hm] at he; injection he with he; exact ⟨_, _, he.symm, .inr (.inr ⟨rd, rn, imm, rfl, hm⟩)⟩

end Sys2Proof.Machine
end

