-- ==== Sys2Proof/Laws/PerInstr.lean ====
section
/-!
SUPPORT. One lemma per instruction: the word of every well-formed instruction is a word of its row of the opcode map, `(w & mask) = match`
(30_encoding R56).
-/

namespace Sys2Proof.Laws.RowMatch

/-- The `match` column of the opcode map (30_encoding R56). -/
def rowMatch : Opcode → BitVec 32
  | .addi => 0x10000000#32
  | .add => 0x20000000#32
  | .subi => 0x30000000#32
  | .b => 0x40000000#32
  | .bl => 0x50000000#32
  | .br => 0x60000000#32
  | .cbz => 0x70000000#32
  | .ldur => 0x80000000#32
  | .stur => 0x90000000#32

/-- The `mask` column of the opcode map, the opcode and the zero fields (30_encoding R56). -/
def rowMask : Opcode → BitVec 32
  | .addi => 0xF0000000#32
  | .add => 0xF0001FFF#32
  | .subi => 0xF0000000#32
  | .b => 0xFFFC0000#32
  | .bl => 0xFFFC0000#32
  | .br => 0xF07FFFFF#32
  | .cbz => 0xF07C0000#32
  | .ldur => 0xF0000000#32
  | .stur => 0xF0000000#32

/-- The instruction's word is one of its row of the opcode map (30_encoding R56, R68). -/
def Statement (i : Instr) : Prop := i.wellFormed = true → encode i &&& rowMask i.opcode = rowMatch i.opcode

/-- A mask acts on each field alone, in the four fields of formats I, J, X and C. -/
theorem and_fields4 (a a' : BitVec 4) (b b' c c' : BitVec 5) (d d' : BitVec 18) :
    (a ++ b ++ c ++ d) &&& (a' ++ b' ++ c' ++ d') = (a &&& a') ++ (b &&& b') ++ (c &&& c') ++ (d &&& d') := by
  simp only [BitVec.and_append]

/-- A mask acts on each field alone, in the five fields of format R. -/
theorem and_fields5 (a a' : BitVec 4) (b b' c c' d d' : BitVec 5) (e e' : BitVec 13) :
    (a ++ b ++ c ++ d ++ e) &&& (a' ++ b' ++ c' ++ d' ++ e') = (a &&& a') ++ (b &&& b') ++ (c &&& c') ++ (d &&& d') ++ (e &&& e') := by
  simp only [BitVec.and_append]

/-- Format I under its mask keeps the opcode alone. -/
theorem encI_masked (op : Opcode) (rd rn : RegIdx) (c : Int) : encI op rd rn c &&& 0xF0000000#32 = opcodeNumber op ++ 0#5 ++ 0#5 ++ 0#18 := by
  rw [show 0xF0000000#32 = BitVec.allOnes 4 ++ 0#5 ++ 0#5 ++ 0#18 from rfl]
  exact (and_fields4 ..).trans (by simp only [BitVec.and_allOnes, BitVec.and_zero])

/-- Format R under its mask keeps the opcode and the zero field, which is 0. -/
theorem encR_masked (op : Opcode) (rd rn rm : RegIdx) :
    encR op rd rn rm &&& 0xF0001FFF#32 = opcodeNumber op ++ 0#5 ++ 0#5 ++ 0#5 ++ 0#13 := by
  rw [show 0xF0001FFF#32 = BitVec.allOnes 4 ++ 0#5 ++ 0#5 ++ 0#5 ++ BitVec.allOnes 13 from rfl]
  exact (and_fields5 ..).trans (by simp only [BitVec.and_allOnes, BitVec.and_zero])

/-- Format J under its mask. -/
theorem encJ_masked (op : Opcode) (c : Int) : encJ op c &&& 0xFFFC0000#32 = opcodeNumber op ++ 0#5 ++ 0#5 ++ 0#18 := by
  rw [show 0xFFFC0000#32 = BitVec.allOnes 4 ++ BitVec.allOnes 5 ++ BitVec.allOnes 5 ++ 0#18 from rfl]
  exact (and_fields4 ..).trans (by simp only [BitVec.and_allOnes, BitVec.and_zero])

/-- Format X under its mask. -/
theorem encX_masked (op : Opcode) (rd : RegIdx) : encX op rd &&& 0xF07FFFFF#32 = opcodeNumber op ++ 0#5 ++ 0#5 ++ 0#18 := by
  rw [show 0xF07FFFFF#32 = BitVec.allOnes 4 ++ 0#5 ++ BitVec.allOnes 5 ++ BitVec.allOnes 18 from rfl]
  exact (and_fields4 ..).trans (by simp only [BitVec.and_allOnes, BitVec.and_zero])

/-- Format C under its mask. -/
theorem encC_masked (op : Opcode) (rd : RegIdx) (c : Int) : encC op rd c &&& 0xF07C0000#32 = opcodeNumber op ++ 0#5 ++ 0#5 ++ 0#18 := by
  rw [show 0xF07C0000#32 = BitVec.allOnes 4 ++ 0#5 ++ BitVec.allOnes 5 ++ 0#18 from rfl]
  exact (and_fields4 ..).trans (by simp only [BitVec.and_allOnes, BitVec.and_zero])

theorem addi (rd rn : RegIdx) (imm : Int) : Statement (.addi rd rn imm) := fun _ => encI_masked .addi rd rn imm
theorem add (rd rn rm : RegIdx) : Statement (.add rd rn rm) := fun _ => encR_masked .add rd rn rm
theorem subi (rd rn : RegIdx) (imm : Int) : Statement (.subi rd rn imm) := fun _ => encI_masked .subi rd rn imm
theorem b (imm : Int) : Statement (.b imm) := fun _ => encJ_masked .b imm
theorem bl (imm : Int) : Statement (.bl imm) := fun _ => encJ_masked .bl imm
theorem br (rd : RegIdx) : Statement (.br rd) := fun _ => encX_masked .br rd
theorem cbz (rd : RegIdx) (imm : Int) : Statement (.cbz rd imm) := fun _ => encC_masked .cbz rd imm
theorem ldur (rd rn : RegIdx) (imm : Int) : Statement (.ldur rd rn imm) := fun _ => encI_masked .ldur rd rn imm
theorem stur (rd rn : RegIdx) (imm : Int) : Statement (.stur rd rn imm) := fun _ => encI_masked .stur rd rn imm

end Sys2Proof.Laws.RowMatch
end

