-- ==== Sys2Proof/Laws/Record.lean ====
section
/-!
SUPPORT. The record decoder's readers against the terms of the statements: what they read is the value of the token's digits by their places.
-/

namespace Sys2Proof.Machine

theorem digitOfChar_eq (c : Char) : digitOfChar c = if c.isDigit then some (c.toNat - 48) else none := by
  have h : c.isDigit = true ↔ '0'.toNat ≤ c.toNat ∧ c.toNat ≤ '9'.toNat := by
    simp only [Char.isDigit, ge_iff_le, Bool.and_eq_true, decide_eq_true_eq]
    rfl
  unfold digitOfChar
  by_cases hd : c.isDigit = true
  · rw [if_pos (h.1 hd), if_pos hd]; rfl
  · rw [if_neg (fun hc => hd (h.2 hc)), if_neg hd]

theorem readDigits_eq (t : Text) (acc : Nat) :
    readDigits acc t = if t.all Char.isDigit = true then some (acc * 10 ^ t.length + decimalValue t) else none := by
  induction t generalizing acc with
  | nil => simp [readDigits, decimalValue]
  | cons c cs ih =>
    rw [readDigits, digitOfChar_eq]
    by_cases hd : c.isDigit = true
    · rw [if_pos hd]
      by_cases ha : cs.all Char.isDigit = true
      · simp only [ih, if_pos ha]
        rw [if_pos (by simp only [List.all_cons, hd, ha, Bool.and_self]), decimalValue, List.length_cons]
        congr 1
        ring
      · simp only [ih, if_neg ha]
        rw [if_neg (by simp only [List.all_cons, hd, Bool.true_and]; exact ha)]
    · rw [if_neg hd, if_neg (by simp [hd])]

theorem readNat_eq (t : Text) : readNat t = if isDecimal t = true then some (decimalValue t) else none := by
  cases t with
  | nil => rfl
  | cons c cs => simp [readNat, readDigits_eq, isDecimal]

/-- The alias function is the table of 10_state R17. -/
theorem readRegIdx_eq (t : Text) : readRegIdx t = regNamed t := by
  unfold readRegIdx regNamed
  rw [readNat_eq]
  split_ifs <;> simp_all

theorem readInt_eq (t : Text) : readInt t = intSpelled t := by
  cases t with
  | nil => rfl
  | cons c cs =>
    simp only [readInt, intSpelled, List.head?_cons, List.tail_cons, Option.some.injEq, readNat_eq]
    by_cases hc : c = '-'
    · subst hc
      have hn : isDecimal ('-' :: cs) = false := by simp [isDecimal]
      by_cases hd : isDecimal cs = true <;> simp [hn, hd]
    · by_cases hd : isDecimal (c :: cs) = true <;> simp [hc, hd]

theorem decodeReg_of_named {t : Text} {i : RegIdx} (h : regNamed t = some i) (pos : Nat) : decodeReg pos t = .ok i := by
  simp [decodeReg, readRegIdx_eq, h]

theorem decodeReg_of_bad {x : Xlen} {t : Text} (h : tokenOk x .reg t = false) (pos : Nat) :
    decodeReg pos t = .error { cause := .badRegisterToken, info := Config.tokenPosition pos } := by
  have : regNamed t = none := by simpa [tokenOk] using h
  simp [decodeReg, readRegIdx_eq, this]

theorem decodeImm_eq (x : Xlen) (pos : Nat) (t : Text) :
    decodeImm x pos t = match immNamed x t with
      | some c => .ok c
      | none => .error { cause := .badImmediateToken, info := Config.tokenPosition pos } := by
  unfold decodeImm immNamed
  rw [readInt_eq]
  cases intSpelled t with
  | none => rfl
  | some c => by_cases h : Fits x c <;> simp [Option.filter, h]

theorem decodeImm_of_named {x : Xlen} {t : Text} {c : Int} (h : immNamed x t = some c) (pos : Nat) : decodeImm x pos t = .ok c := by
  rw [decodeImm_eq, h]

theorem decodeImm_of_bad {x : Xlen} {t : Text} (h : tokenOk x .imm t = false) (pos : Nat) :
    decodeImm x pos t = .error { cause := .badImmediateToken, info := Config.tokenPosition pos } := by
  have : immNamed x t = none := by simpa [tokenOk] using h
  rw [decodeImm_eq, this]

/-- The nine mnemonics, and nothing else, are opcodes (30_encoding R51, R67). -/
theorem opcodeOfText_eq_some (t : Text) (op : Opcode) : opcodeOfText t = some op ↔ t = mnemonicText op := by
  constructor
  · unfold opcodeOfText
    split_ifs <;> intro h <;> cases h <;> assumption
  · rintro rfl; cases op <;> rfl

theorem regNamed_of_ok {x : Xlen} {t : Text} (h : tokenOk x .reg t = true) : ∃ i, regNamed t = some i := Option.isSome_iff_exists.1 h

theorem immNamed_of_ok {x : Xlen} {t : Text} (h : tokenOk x .imm t = true) : ∃ c, immNamed x t = some c := Option.isSome_iff_exists.1 h

theorem fits_of_immNamed {x : Xlen} {t : Text} {c : Int} (h : immNamed x t = some c) : Fits x c := by
  unfold immNamed at h
  simpa using (Option.filter_eq_some_iff.1 h).2

/-- Operands of the wrong number. -/
theorem decodeOperands_count {x : Xlen} {op : Opcode} {ts : List Text} (h : ts.length ≠ (tokenKinds op).length) :
    decodeOperands x op ts = .error (operandCountFailure x ts) := by
  cases op <;> simp only [tokenKinds, List.length] at h <;>
    simp only [decodeOperands, decodeRegRegImm, decodeRegRegReg, decodeOffset, decodeTarget, decodeRegOffset] <;> split <;> simp_all

/-- Operands without a bad token: the instruction whose fields they name. -/
theorem decodeOperands_ok {x : Xlen} {op : Opcode} {ts : List Text} (hl : ts.length = (tokenKinds op).length)
    (h : ∀ (j : Nat) (kd : TokenKind) (t : Text), (tokenKinds op)[j]? = some kd → ts[j]? = some t → tokenOk x kd t = true) :
    ∃ i : Instr, i.opcode = op ∧ i.recordWellFormed x = true ∧ RecordGives x ts i ∧ decodeOperands x op ts = .ok i := by
  cases op <;> simp only [tokenKinds, List.length] at hl <;>
    simp only [decodeOperands, decodeRegRegImm, decodeRegRegReg, decodeOffset, decodeTarget, decodeRegOffset]
  case addi | subi | ldur | stur =>
    match ts, hl with
    | [t0, t1, t2], _ =>
      obtain ⟨a, ha⟩ := regNamed_of_ok (h 0 .reg t0 rfl rfl)
      obtain ⟨b, hb⟩ := regNamed_of_ok (h 1 .reg t1 rfl rfl)
      obtain ⟨c, hc⟩ := immNamed_of_ok (h 2 .imm t2 rfl rfl)
      simp only [decodeReg_of_named ha, decodeReg_of_named hb, decodeImm_of_named hc]
      refine ⟨_, ?_, ?_, ?_, rfl⟩
      · rfl
      · exact decide_eq_true (fits_of_immNamed hc)
      · exact ⟨t0, t1, t2, rfl, ha, hb, hc⟩
  case add =>
    match ts, hl with
    | [t0, t1, t2], _ =>
      obtain ⟨a, ha⟩ := regNamed_of_ok (h 0 .reg t0 rfl rfl)
      obtain ⟨b, hb⟩ := regNamed_of_ok (h 1 .reg t1 rfl rfl)
      obtain ⟨c, hc⟩ := regNamed_of_ok (h 2 .reg t2 rfl rfl)
      simp only [decodeReg_of_named ha, decodeReg_of_named hb, decodeReg_of_named hc]
      refine ⟨_, ?_, ?_, ?_, rfl⟩
      · rfl
      · exact rfl
      · exact ⟨t0, t1, t2, rfl, ha, hb, hc⟩
  case b | bl =>
    match ts, hl with
    | [t0], _ =>
      obtain ⟨c, hc⟩ := immNamed_of_ok (h 0 .imm t0 rfl rfl)
      simp only [decodeImm_of_named hc]
      refine ⟨_, ?_, ?_, ?_, rfl⟩
      · rfl
      · exact decide_eq_true (fits_of_immNamed hc)
      · exact ⟨t0, rfl, hc⟩
  case br =>
    match ts, hl with
    | [t0], _ =>
      obtain ⟨a, ha⟩ := regNamed_of_ok (h 0 .reg t0 rfl rfl)
      simp only [decodeReg_of_named ha]
      refine ⟨_, ?_, ?_, ?_, rfl⟩
      · rfl
      · exact rfl
      · exact ⟨t0, rfl, ha⟩
  case cbz =>
    match ts, hl with
    | [t0, t1], _ =>
      obtain ⟨a, ha⟩ := regNamed_of_ok (h 0 .reg t0 rfl rfl)
      obtain ⟨c, hc⟩ := immNamed_of_ok (h 1 .imm t1 rfl rfl)
      simp only [decodeReg_of_named ha, decodeImm_of_named hc]
      refine ⟨_, ?_, ?_, ?_, rfl⟩
      · rfl
      · exact decide_eq_true (fits_of_immNamed hc)
      · exact ⟨t0, t1, rfl, ha, hc⟩

/-- A bad token of either kind fails with its cause and its position. -/
theorem bad_token {x : Xlen} {t : Text} (pos : Nat) :
    (tokenOk x .reg t = false → decodeReg pos t = .error { cause := tokenCause .reg, info := Config.tokenPosition pos }) ∧
      (tokenOk x .imm t = false → decodeImm x pos t = .error { cause := tokenCause .imm, info := Config.tokenPosition pos }) :=
  ⟨fun h => decodeReg_of_bad h pos, fun h => decodeImm_of_bad h pos⟩

/-- Operands of the right number with a bad token: the first one decides. -/
theorem decodeOperands_bad {x : Xlen} {op : Opcode} {ts : List Text} {j : Nat} {kd : TokenKind} (h : FirstBadToken x op ts j kd) :
    decodeOperands x op ts = .error { cause := tokenCause kd, info := Config.tokenPosition j } := by
  obtain ⟨hl, hb, h1, t, h2, h3⟩ := h
  cases op <;> simp only [tokenKinds, List.length] at hl <;>
    simp only [decodeOperands, decodeRegRegImm, decodeRegRegReg, decodeOffset, decodeTarget, decodeRegOffset]
  case addi | subi | ldur | stur =>
    match ts, hl with
    | [t0, t1, t2], _ =>
      match j with
      | 0 => cases h1; cases h2; simp only [(bad_token 0).1 h3]; rfl
      | 1 =>
        cases h1; cases h2
        obtain ⟨a, ha⟩ := regNamed_of_ok (hb 0 .reg t0 (by decide) rfl rfl)
        simp only [decodeReg_of_named ha, (bad_token 1).1 h3]; rfl
      | 2 =>
        cases h1; cases h2
        obtain ⟨a, ha⟩ := regNamed_of_ok (hb 0 .reg t0 (by decide) rfl rfl)
        obtain ⟨b, hb⟩ := regNamed_of_ok (hb 1 .reg t1 (by decide) rfl rfl)
        simp only [decodeReg_of_named ha, decodeReg_of_named hb, (bad_token 2).2 h3]; rfl
      | n + 3 => cases h2
  case add =>
    match ts, hl with
    | [t0, t1, t2], _ =>
      match j with
      | 0 => cases h1; cases h2; simp only [(bad_token 0).1 h3]; rfl
      | 1 =>
        cases h1; cases h2
        obtain ⟨a, ha⟩ := regNamed_of_ok (hb 0 .reg t0 (by decide) rfl rfl)
        simp only [decodeReg_of_named ha, (bad_token 1).1 h3]; rfl
      | 2 =>
        cases h1; cases h2
        obtain ⟨a, ha⟩ := regNamed_of_ok (hb 0 .reg t0 (by decide) rfl rfl)
        obtain ⟨b, hb⟩ := regNamed_of_ok (hb 1 .reg t1 (by decide) rfl rfl)
        simp only [decodeReg_of_named ha, decodeReg_of_named hb, (bad_token 2).1 h3]; rfl
      | n + 3 => cases h2
  case b | bl =>
    match ts, hl with
    | [t0], _ =>
      match j with
      | 0 => cases h1; cases h2; simp only [(bad_token 0).2 h3]; rfl
      | n + 1 => cases h2
  case br =>
    match ts, hl with
    | [t0], _ =>
      match j with
      | 0 => cases h1; cases h2; simp only [(bad_token 0).1 h3]; rfl
      | n + 1 => cases h2
  case cbz =>
    match ts, hl with
    | [t0, t1], _ =>
      match j with
      | 0 => cases h1; cases h2; simp only [(bad_token 0).1 h3]; rfl
      | 1 =>
        cases h1; cases h2
        obtain ⟨a, ha⟩ := regNamed_of_ok (hb 0 .reg t0 (by decide) rfl rfl)
        simp only [decodeReg_of_named ha, (bad_token 1).2 h3]; rfl
      | n + 2 => cases h2

/-- What a list of operands can decode to: the wrong number of them, a first bad token, or the instruction they name. -/
theorem decodeOperands_cases (x : Xlen) (op : Opcode) (ts : List Text) :
    (ts.length ≠ (tokenKinds op).length ∧ decodeOperands x op ts = .error (operandCountFailure x ts)) ∨
      (∃ j kd, FirstBadToken x op ts j kd ∧
        decodeOperands x op ts = .error { cause := tokenCause kd, info := Config.tokenPosition j }) ∨
      (∃ i : Instr, i.opcode = op ∧ i.recordWellFormed x = true ∧ RecordGives x ts i ∧ decodeOperands x op ts = .ok i) := by
  by_cases hl : ts.length = (tokenKinds op).length
  · by_cases hb : ∃ (j : Nat), ∃ (kd : TokenKind) (t : Text), (tokenKinds op)[j]? = some kd ∧ ts[j]? = some t ∧ tokenOk x kd t = false
    · classical
      obtain ⟨kd, t, h1, h2, h3⟩ := Nat.find_spec hb
      have hf : FirstBadToken x op ts (Nat.find hb) kd := by
        refine ⟨hl, fun j' kd' t' hj hk ht => ?_, h1, t, h2, h3⟩
        by_contra hne
        exact Nat.find_min hb hj ⟨kd', t', hk, ht, by simpa using hne⟩
      exact .inr (.inl ⟨_, kd, hf, decodeOperands_bad hf⟩)
    · refine .inr (.inr (decodeOperands_ok hl fun j kd t hk ht => ?_))
      by_contra hne
      exact hb ⟨j, kd, t, hk, ht, by simpa using hne⟩
  · exact .inl ⟨hl, decodeOperands_count hl⟩

end Sys2Proof.Machine
end

