-- ==== Sys2Proof/Tests/Slice0.lean ====
section
/-!
SUPPORT. The model's own tests: the words and vectors of 95_test_vectors, hand-taken from that file, and a witness of the hypotheses of every
statement that has some.
-/

open Sys2Proof Sys2Proof.Machine

namespace Sys2Proof.Tests

/-! ## Helpers -/

/-- A machine after reset and `start`, with default parameters, these cells and these registers (95_test_vectors, opening). -/
def machine (cells : Memory) (rs : List (RegIdx × Int)) : State :=
  rs.foldl (fun s r => setReg s r.1 r.2) { startExec State.reset with mem := cells }

/-- An instruction cell at index `k`, with the address the loader gives it. -/
def word (k : Nat) (w : BitVec 32) : Nat × MemCell := (k, .instr { addr := 4 * k, code := .word w })

/-- A machine about to run the word `w` at 200. -/
def running (w : BitVec 32) (rs : List (RegIdx × Int)) : State := machine [word 50 w] rs

/-- A machine about to run a record at 200. -/
def runningRecord (op : Text) (ts : List Text) : State :=
  machine [(50, .instr { addr := 200, code := .record { opcode := op, operands := ts } })] []

/-- The next state, where there is one. -/
def next? (o : Result) : Option State :=
  match o with
  | .next t => some t
  | .fault _ => none
  | .refused _ => none

/-- The state after one step and after two. -/
def one (s : State) : Option State := next? (step s)
def two (s : State) : Option State := (one s).bind one

/-- What a vector's end column says of a step: two registers and the status. -/
def look (i j : RegIdx) (t : State) : Int × Int × Status := (readReg t i, readReg t j, t.status)

/-- The fault record as the vectors write it. -/
def faultOf (t : State) : Nat × Int × Int := (t.fault.cause.code.toNat, t.fault.addr, t.fault.info)

/-- A data cell as the vectors write it. -/
def dataOf (k : Nat) (t : State) : Option (Nat × Int) :=
  match readCell t k with
  | .data a v => some (a, v)
  | .empty => none
  | .instr _ => none

/-! ## Well-formedness (30_encoding R55; 18 and 64 bits) -/

theorem test_wellFormed_bounds : (Instr.addi 1 2 131071).wellFormed = true ∧ (Instr.addi 1 2 (-131072)).wellFormed = true := by decide
theorem test_illformed_imm_above :
    [Instr.addi 0 0 131072, .subi 0 0 131072, .b 131072, .bl 131072, .cbz 0 131072, .ldur 0 0 131072, .stur 0 0 131072].all
      (fun i => !i.wellFormed) = true := by decide
theorem test_illformed_imm_below : (Instr.addi 1 2 (-131073)).wellFormed = false := by decide
theorem test_record_illformed : (Instr.b 2147483648).recordWellFormed .w32 = false ∧ (Instr.b 2147483648).recordWellFormed .w64 = true := by decide

/-! ## Decoding (95_test_vectors section 2), each word written out by its fields -/

theorem test_decode_addi : decodeWord (0b0001#4 ++ 0b00001#5 ++ 0b00010#5 ++ 0b100000000000000000#18) = .ok (.addi 1 2 (-131072)) := by decide
theorem test_decode_add : decodeWord (0b0010#4 ++ 0b01010#5 ++ 0b11100#5 ++ 0b11110#5 ++ 0#13) = .ok (.add 10 28 30) := by decide
theorem test_decode_subi : decodeWord (0b0011#4 ++ 0b00011#5 ++ 0b11111#5 ++ 0b000000000000000001#18) = .ok (.subi 3 31 1) := by decide
theorem test_decode_b : decodeWord (0b0100#4 ++ 0#10 ++ 0b111111111111111000#18) = .ok (.b (-8)) := by decide
theorem test_decode_bl : decodeWord (0b0101#4 ++ 0#10 ++ 0b111111111111110000#18) = .ok (.bl (-16)) := by decide
theorem test_decode_br : decodeWord (0b0110#4 ++ 0b11110#5 ++ 0#23) = .ok (.br 30) := by decide
theorem test_decode_cbz : decodeWord (0b0111#4 ++ 0b01001#5 ++ 0#5 ++ 0b000000000000001000#18) = .ok (.cbz 9 8) := by decide
theorem test_decode_ldur : decodeWord (0b1000#4 ++ 0b00010#5 ++ 0b00011#5 ++ 0b111111111111110100#18) = .ok (.ldur 2 3 (-12)) := by decide
theorem test_decode_stur : decodeWord (0b1001#4 ++ 0b11110#5 ++ 0b11100#5 ++ 0b000000000000001000#18) = .ok (.stur 30 28 8) := by decide

theorem test_encode_words :
    [Instr.addi 1 2 131071, .add 3 1 31, .subi 28 28 108, .b (-8), .bl 4, .br 29, .cbz 31 (-4), .ldur 1 31 100, .stur 31 28 16].map encode =
      [0x1089FFFF#32, 0x2187E000#32, 0x3E70006C#32, 0x4003FFF8#32, 0x50000004#32, 0x6E800000#32, 0x7F83FFFC#32, 0x80FC0064#32, 0x9FF00010#32] := by
  decide

/-- The illegal words of 95_test_vectors section 2. -/
theorem test_illegal_words :
    [0x00000000#32, 0xA0000000#32, 0xFFFFFFFF#32, 0x21002001#32, 0x40040010#32, 0x50800000#32, 0x6F800001#32, 0x74840008#32].map
        (fun w => (one (running w [])).map (fun t => (faultOf t, pc t, t.status))) =
      [(1, 200, 0), (1, 200, 10), (1, 200, 15), (4, 200, 0x21002001), (4, 200, 0x40040010), (4, 200, 0x50800000), (4, 200, 0x6F800001),
        (4, 200, 0x74840008)].map (fun f => some (f, 200, .abortedDecodeError)) := by decide

/-! ## One step of each instruction (95_test_vectors section 3) -/

/-- A4. -/
theorem test_addi_wraps : (one (running 0x11040001#32 [(1, 9223372036854775807)])).map (look 2 .PC) =
    some (-9223372036854775808, 204, .running) := by decide
/-- A17. -/
theorem test_addi_pc_zero : (one (running 0x1EFC0000#32 [])).map (fun t => (pc t, t.status, faultOf t)) = some (0, .haltedPcZero, 0, 200, 0) := by
  decide
/-- A8. -/
theorem test_add_uses_both : (one (running 0x21002000#32 [(0, 5), (1, 3)])).map (look 2 .PC) = some (8, 204, .running) := by decide
/-- A13. -/
theorem test_add_xzr : (one (running 0x2F844000#32 [(1, 1), (2, 2)])).map (fun t => (pc t, faultOf t)) = some (200, 5, 200, 31) := by decide
/-- A5. -/
theorem test_subi_wraps : (one (running 0x31040001#32 [(1, -9223372036854775808)])).map (look 2 .PC) =
    some (9223372036854775807, 204, .running) := by decide
/-- K3. -/
theorem test_subi_sp_misaligned : (one (running 0x3E700004#32 [])).map (fun t => (sp t, pc t, faultOf t, t.status)) =
    some (3996, 204, (17, 200, 3996), .faultedStackOverflow) := by decide
/-- B5. -/
theorem test_b_to_zero : (one (running 0x4003FF38#32 [])).map (fun t => (pc t, t.status, faultOf t)) = some (0, .haltedPcZero, 0, 200, 0) := by
  decide
/-- B6. -/
theorem test_b_misaligned : (two (running 0x40000006#32 [])).map faultOf = some (6, 206, 206) := by decide
/-- B19. -/
theorem test_bl_clears_and_jumps :
    (one (machine [word 50 0x5003FFF0#32, (487, .data 3896 1), (488, .data 3904 2), (495, .data 3960 3)] [(.LR, 300), (.SP, 3904)])).map
        (fun t => (look .SP .PC t, readReg t .LR, t.mem)) =
      some ((4000, 284, .running), 300, [word 50 0x5003FFF0#32, (487, .data 3896 1)]) := by decide
/-- B18. -/
theorem test_bl_halts : (one (running 0x50000000#32 [])).map (look .SP .PC) = some (4000, 0, .haltedPcZero) := by decide
/-- B8. -/
theorem test_br_out_of_range : (two (running 0x60800000#32 [(1, 4096)])).map faultOf = some (7, 4096, 4096) := by decide
/-- S2. -/
theorem test_br_xzr : (one (running 0x6F800000#32 [])).map (fun t => (pc t, t.status, faultOf t)) = some (0, .haltedPcZero, 0, 200, 0) := by decide
/-- B14. -/
theorem test_cbz_not_taken : (one (running 0x70800008#32 [(1, -1)])).map (look 1 .PC) = some (-1, 200, .running) := by decide
/-- B15, from 200. -/
theorem test_cbz_xzr : (one (running 0x7F83FFFC#32 [])).map (look 1 .PC) = some (0, 196, .running) := by decide
/-- M8. -/
theorem test_ldur_divides_apart : (one (machine [(26, .data 104 8), word 50 0x808C006C#32] [(3, -4)])).map (look 1 .PC) =
    some (8, 204, .running) := by decide
/-- M21. -/
theorem test_ldur_sp : (one (machine [(25, .data 100 3000), word 50 0x8E7C0064#32] [])).map (fun t => (sp t, pc t, faultOf t)) =
    some (3000, 204, 16, 200, 3000) := by decide
/-- M4. -/
theorem test_stur_above_stack : (one (running 0x9FF00010#32 [])).map (fun t => (dataOf 502 t, pc t, t.status)) =
    some (some (4016, 0), 204, .running) := by decide
/-- M16. -/
theorem test_stur_to_instruction : (one (running 0x90FC00C8#32 [])).map (fun t => (faultOf t, pc t)) = some ((11, 200, 50), 200) := by decide

/-! ## The cycle and the host -/

/-- F1. -/
theorem test_end_of_program : (one (machine [] [])).map (fun t => (t.status, faultOf t, pc t)) = some (.haltedEndOfProgram, (0, 200, 0), 200) := by
  decide
/-- F2: the data cell is fetched after `ADDI X0, X0, #5`. -/
theorem test_fetch_data : (two (machine [word 50 0x10000005#32, (51, .data 204 1)] [])).map (fun t => (faultOf t, readReg t 0)) =
    some ((8, 204, 51), 5) := by decide
/-- A16: the pc becomes 0 by the increment, and the next cycle halts before its fetch. -/
theorem test_pc_zero_by_increment :
    (one (running 0x3EFC0004#32 [])).map (fun t => (pc t, t.status)) = some (0, .running) ∧
      (two (running 0x3EFC0004#32 [])).map (fun t => (t.status, faultOf t)) = some (.haltedPcZero, 0, 0, 0) := by decide
/-- F5: the load port in `Load` and in `Exec`. -/
theorem test_load_port :
    (next? (hostEvent (.load 50 (word 50 0x6F800000#32).2) State.reset)).map (fun t => t.mem) = some [word 50 0x6F800000#32] ∧
      next? (hostEvent (.load 50 (word 50 0x6F800000#32).2) (machine [] [])) = none ∧
      next? (hostEvent (.load 1024 (word 50 0x6F800000#32).2) State.reset) = none := by decide
/-- The host's own move: the word runs as the first instruction after reset. -/
theorem test_withFetchWord : (one (State.reset.withFetchWord 32 0x1F740008)).map (look .LR .PC) = some (208, 204, .running) := by decide
theorem test_decodeTableWord : decodeTableWord 32 0x9F700008 = some (.stur 30 28 8) ∧ decodeTableWord 32 0x21002001 = none := by decide

/-- A record: `STUR LR, [SP, #-8]`, its tokens as 30_encoding R51 and R64 give them. -/
theorem test_decode_record : decodeRecord .w64 { opcode := ['S', 'T', 'U', 'R'], operands := [['L', 'R'], ['S', 'P'], ['-', '8']] } =
    .ok (.stur 30 28 (-8)) := by decide
/-- The causes of 40_fetch_decode R83, and its order: the count first, then the tokens from the left. -/
theorem test_record_causes :
    [[], [['5'], ['3', '2'], ['x']], [['5'], ['3', '1'], ['x']], [['S', 'P'], ['L', 'R'], ['1'], ['2']]].map
        (fun ts => (one (runningRecord ['A', 'D', 'D', 'I'] ts)).map (fun t => (t.fault.cause.code.toNat, pc t, t.status))) =
      [3, 2, 12, 3].map (fun c => some (c, 200, .abortedDecodeError)) := by decide
/-- An immediate of XLEN bits is legal in a record, and the next one is not (30_encoding R51). -/
theorem test_record_imm :
    (readInt ['2', '1', '4', '7', '4', '8', '3', '6', '4', '7'] = some 2147483647) ∧
      decodeRecord .w32 { opcode := ['B'], operands := [['2', '1', '4', '7', '4', '8', '3', '6', '4', '7']] } = .ok (.b 2147483647) ∧
      (one (State.mk { xlen := .w32, stackSize := 0, memCells := 501 } resetRegs
          [(25, .instr { addr := 100, code := .record { opcode := ['B'], operands := [['2', '1', '4', '7', '4', '8', '3', '6', '4', '8']] } })]
          .running .exec FaultRecord.zero false none)).map (fun t => t.fault.cause) = some .badImmediateToken := by decide

/-! ## Witnesses: a state and operands that meet the hypotheses of each statement, one for each of its clauses -/

/-- The state of the witnesses: after reset and `start`, no cells. -/
def idle : State := machine [] []

/-- A state that fetches a record at 200. -/
def recordCell (op : Text) (ts : List Text) : InstrCell := { addr := 200, code := .record { opcode := op, operands := ts } }
def wordCell (w : BitVec 32) : InstrCell := { addr := 200, code := .word w }

/-- A machine whose run is over. -/
def ended : State := { idle with status := .abortedDecodeError, fault := { cause := .writeToXzr, addr := 200, info := 31 } }

theorem idle_inv : idle.Inv := by constructor <;> decide
theorem running_inv : (running 0x3E700060#32 []).Inv := by constructor <;> decide

theorem witness_EncodeThenDecode : (Instr.stur 31 28 (-131072)).wellFormed = true ∧ (Instr.add 31 30 29).wellFormed = true := by decide
theorem witness_DecodeThenEncode : decodeWord 0x6F800000#32 = .ok (.br 31) := by decide

/-- Words: the opcode numbers 0, 10 and 15; and a record with another mnemonic. -/
theorem witness_UnrecognisedOpcode :
    (Enabled (running 0x0FFFFFFF#32 []) ∧ pc (running 0x0FFFFFFF#32 []) ≠ 0 ∧
        fetchCell (running 0x0FFFFFFF#32 []) (pc (running 0x0FFFFFFF#32 [])) = .instr (wordCell 0x0FFFFFFF#32)) ∧
      (0x0FFFFFFF#32).toNat / 2 ^ 28 = 0 ∧ 10 ≤ (0xA0000000#32).toNat / 2 ^ 28 ∧ 10 ≤ (0xFFFFFFFF#32).toNat / 2 ^ 28 ∧
      (Enabled (runningRecord ['N', 'O', 'P'] []) ∧ pc (runningRecord ['N', 'O', 'P'] []) ≠ 0 ∧
        fetchCell (runningRecord ['N', 'O', 'P'] []) (pc (runningRecord ['N', 'O', 'P'] [])) = .instr (recordCell ['N', 'O', 'P'] [])) ∧
      ['N', 'O', 'P'] ∉ [['A', 'D', 'D', 'I'], ['A', 'D', 'D'], ['S', 'U', 'B', 'I'], ['B'], ['B', 'L'], ['B', 'R'], ['C', 'B', 'Z'],
        ['L', 'D', 'U', 'R'], ['S', 'T', 'U', 'R']] := by decide

/-- One word for each format with a zero field, its lowest or highest bit set; and `B` with two operands. -/
theorem witness_ReservedField :
    (Enabled (running 0x21002001#32 []) ∧ pc (running 0x21002001#32 []) ≠ 0 ∧
        fetchCell (running 0x21002001#32 []) (pc (running 0x21002001#32 [])) = .instr (wordCell 0x21002001#32)) ∧
      ((0x21002001#32).extractLsb 31 28 = 2#4 ∧ (0x21002001#32).extractLsb 12 0 ≠ 0) ∧
      ((0x48000010#32).extractLsb 31 28 = 4#4 ∧ (0x48000010#32).extractLsb 27 18 ≠ 0) ∧
      ((0x50040000#32).extractLsb 31 28 = 5#4 ∧ (0x50040000#32).extractLsb 27 18 ≠ 0) ∧
      ((0x6F800001#32).extractLsb 31 28 = 6#4 ∧ (0x6F800001#32).extractLsb 22 0 ≠ 0) ∧
      ((0x74840008#32).extractLsb 31 28 = 7#4 ∧ (0x74840008#32).extractLsb 22 18 ≠ 0) ∧
      (fetchCell (runningRecord ['B'] [['4'], ['8']]) 200 = .instr (recordCell ['B'] [['4'], ['8']]) ∧
        opcodeOfText ['B'] = some .b ∧ (tokenKinds .b).length < 2) := by decide

/-- The three cases of a record: too few operands; a register token 32 after a good one; and no bad token. -/
theorem witness_RecordDecodeErrors :
    (Enabled (runningRecord ['C', 'B', 'Z'] [['1']]) ∧ ['C', 'B', 'Z'] = mnemonicText .cbz ∧ pc (runningRecord ['C', 'B', 'Z'] [['1']]) = 200 ∧
        fetchCell (runningRecord ['C', 'B', 'Z'] [['1']]) 200 = .instr (recordCell ['C', 'B', 'Z'] [['1']]) ∧
        [['1']].length ≠ (tokenKinds .cbz).length) ∧
      (fetchCell (runningRecord ['S', 'U', 'B', 'I'] [['3', '1'], ['3', '2'], ['x']]) 200 =
          .instr (recordCell ['S', 'U', 'B', 'I'] [['3', '1'], ['3', '2'], ['x']]) ∧
        ['S', 'U', 'B', 'I'] = mnemonicText .subi ∧ tokenKinds .subi = [.reg, .reg, .imm] ∧
        tokenOk .w64 .reg ['3', '1'] = true ∧ tokenOk .w64 .reg ['3', '2'] = false ∧ tokenOk .w64 .imm ['x'] = false) ∧
      (fetchCell (runningRecord ['A', 'D', 'D'] [['X', 'Z', 'R'], ['S', 'P'], ['L', 'R']]) 200 =
          .instr (recordCell ['A', 'D', 'D'] [['X', 'Z', 'R'], ['S', 'P'], ['L', 'R']]) ∧
        ['A', 'D', 'D'] = mnemonicText .add ∧ tokenKinds .add = [.reg, .reg, .reg] ∧
        [['X', 'Z', 'R'], ['S', 'P'], ['L', 'R']].all (tokenOk .w64 .reg) = true) ∧
      decodeWord 0xB0000000#32 = .error { cause := .unrecognisedOpcode, info := 11 } := by decide

/-- The first bad token of that list is the second, a register token 32; and of `CBZ X31, #-` it is the second, an offset without digits. -/
theorem witness_FirstBadToken :
    FirstBadToken .w64 .subi [['3', '1'], ['3', '2'], ['x']] 1 .reg ∧ FirstBadToken .w64 .cbz [['3', '1'], ['-']] 1 .imm := by
  constructor <;> refine ⟨rfl, fun j' kd' t' hj hk ht => ?_, rfl, _, rfl, by decide⟩
  all_goals
    obtain rfl : j' = 0 := by omega
    cases hk
    cases ht
    decide

/-- The three alias words, the last legal number and the first illegal one; a numeral with a leading zero; and the extreme constants of 32 bits. -/
theorem witness_RecordTokens :
    regNamed ['S', 'P'] = some 28 ∧ regNamed ['L', 'R'] = some 30 ∧ regNamed ['X', 'Z', 'R'] = some 31 ∧ regNamed ['0', '3', '1'] = some 31 ∧
      regNamed ['2', '9'] = some 29 ∧ isDecimal ['3', '2'] = true ∧ decimalValue ['3', '2'] = 32 ∧
      immNamed .w32 ['-', '2', '1', '4', '7', '4', '8', '3', '6', '4', '8'] = some (-2147483648) ∧
      immNamed .w32 ['2', '1', '4', '7', '4', '8', '3', '6', '4', '8'] = none := by decide

/-- `LDUR LR, [SP, #-16]` as a record: the fields in their order. -/
theorem test_record_fields :
    decodeRecord .w64 { opcode := ['L', 'D', 'U', 'R'], operands := [['L', 'R'], ['S', 'P'], ['-', '1', '6']] } = .ok (.ldur 30 28 (-16)) ∧
      decodeRecord .w64 { opcode := ['A', 'D', 'D'], operands := [['1'], ['2'], ['X', 'Z', 'R']] } = .ok (.add 1 2 31) := by decide

theorem witness_StepRuns :
    Enabled (running 0x3E700060#32 []) ∧ pc (running 0x3E700060#32 []) ≠ 0 ∧ pc (running 0x3E700060#32 []) % 4 = 0 ∧
      0 ≤ pc (running 0x3E700060#32 []) / 4 ∧ pc (running 0x3E700060#32 []) / 4 < ((running 0x3E700060#32 []).params.memCells : Int) ∧
      readCell (running 0x3E700060#32 []) (pc (running 0x3E700060#32 []) / 4).toNat = .instr (wordCell 0x3E700060#32) ∧
      decodeCode .w64 (wordCell 0x3E700060#32).code = .ok (.subi 28 28 96) := by decide

theorem witness_PcZero : Enabled (machine [word 0 0x10000005#32] [(.PC, 0)]) ∧ pc (machine [word 0 0x10000005#32] [(.PC, 0)]) = 0 := by decide

/-- The five outcomes of a fetch: pc 202; 4096 and -4, the first indices outside; 4092, the last inside, `Empty`, data, and an instruction. -/
theorem witness_Fetch :
    (Enabled (machine [] [(.PC, 202)]) ∧ pc (machine [] [(.PC, 202)]) ≠ 0 ∧ pc (machine [] [(.PC, 202)]) % 4 ≠ 0) ∧
      (pc (machine [] [(.PC, 4096)]) % 4 = 0 ∧ ¬ CellExists (machine [] [(.PC, 4096)]) (Int.tdiv (pc (machine [] [(.PC, 4096)])) 4)) ∧
      ¬ CellExists (machine [] [(.PC, -4)]) (Int.tdiv (pc (machine [] [(.PC, -4)])) 4) ∧
      (pc (machine [] [(.PC, 4092)]) % 4 = 0 ∧ CellExists (machine [] [(.PC, 4092)]) (Int.tdiv (pc (machine [] [(.PC, 4092)])) 4) ∧
        readCell (machine [] [(.PC, 4092)]) 1023 = .empty) ∧
      readCell (machine [(50, .data 200 7)] []) (Int.tdiv (pc (machine [(50, .data 200 7)] [])) 4).toNat = .data 200 7 ∧
      readCell (running 0x50000000#32 []) (Int.tdiv (pc (running 0x50000000#32 [])) 4).toNat = .instr (wordCell 0x50000000#32) := by decide

theorem witness_Ignored : ¬ Enabled State.reset ∧ ¬ Enabled ended := by decide

theorem witness_ReadAfterWrite : (0 : RegIdx) ≠ .XZR ∧ (30 : RegIdx) ≠ .XZR ∧ (28 : RegIdx) ≠ 0 := by decide

/-- The extreme values of each width. -/
theorem witness_Wrap :
    (-(2 ^ 63 : Int) ≤ 9223372036854775807 ∧ (9223372036854775807 : Int) ≤ 2 ^ 63 - 1 ∧
        ((9223372036854775807 : Int) - -9223372036854775809) % 2 ^ 64 = 0) ∧
      (-(2 ^ 31 : Int) ≤ -2147483648 ∧ ((-2147483648 : Int) - 2147483648) % 2 ^ 32 = 0) := by decide

theorem witness_Xzr :
    (InHandler idle ∧ destReg? (.addi 31 0 1) = some .XZR ∧ destReg? (.add 31 0 1) = some .XZR ∧ destReg? (.subi 31 0 1) = some .XZR ∧
        destReg? (.ldur 31 0 1) = some .XZR) ∧
      (destReg? (.stur 31 31 100) ≠ some .XZR ∧ next? (exec (.stur 31 31 100) ended) ≠ none ∧
        (next? (exec (.stur 31 31 100) ended)).map (fun t => t.fault.cause) = some .writeToXzr) ∧
      next? (hostEvent .reset ended) ≠ none ∧ next? (hostEvent .start State.reset) ≠ none := by decide

theorem witness_RegistersChange :
    next? (exec (.addi 1 0 3) idle) ≠ none ∧ (2 : RegIdx) ≠ .PC ∧ destReg? (.addi 1 0 3) ≠ some 2 ∧
      next? (exec (.bl 4) idle) ≠ none ∧ (30 : RegIdx) ≠ .PC ∧ destReg? (.bl 4) ≠ some 30 := by decide

/-- The premises of the clauses of `WritesRegister` at `s`: `v` is out of the window below and above it, inside and misaligned, good, 0 and not 0. -/
def clauseValues (s : State) (below above misaligned low high : Int) : Prop :=
  wrap s.params.xlen below < 4000 - (s.params.stackSize : Int) ∧ 4000 < wrap s.params.xlen above ∧
    (4000 - (s.params.stackSize : Int) ≤ wrap s.params.xlen misaligned ∧ wrap s.params.xlen misaligned ≤ 4000 ∧
      wrap s.params.xlen misaligned % 8 ≠ 0) ∧
    SpOk s.params (wrap s.params.xlen low) ∧ SpOk s.params (wrap s.params.xlen high)

theorem witness_WritesRegister :
    clauseValues idle 3899 4001 3900 3904 4000 ∧ (1 : RegIdx) ≠ .SP ∧ (1 : RegIdx) ≠ .PC ∧ (1 : RegIdx) ≠ .XZR ∧
      wrap .w64 (-4) ≠ 0 ∧ wrap .w64 18446744073709551616 = 0 := by
  unfold clauseValues; decide

/-- ADDI: `ADDI Xd, XZR, #c` reaches each value of `witness_WritesRegister`, and 1 + the largest value but one is exact. -/
theorem witness_Addi :
    (0x1089FFFF#32).extractLsb 31 28 = 1#4 ∧ InHandler idle ∧
      [3899, 4001, 3900, 3904, 4000, -4, 0].map (fun c => readReg idle 31 + c) = [3899, 4001, 3900, 3904, 4000, -4, 0] ∧
      Fits idle.params.xlen (readReg (machine [] [(1, 9223372036854775806)]) 1 + 1) := by decide
/-- ADD: `ADD Xd, X1, XZR` with these values of X1; and a reserved field that is 0 and one that is not. -/
theorem witness_Add :
    (0x2187E000#32).extractLsb 31 28 = 2#4 ∧ (0x2187E000#32).extractLsb 12 0 = 0 ∧
      (0x2187F000#32).extractLsb 31 28 = 2#4 ∧ (0x2187F000#32).extractLsb 12 0 ≠ 0 ∧
      [3899, 4001, 3900, 3904, 4000, -4, 0].map (fun v => readReg (machine [] [(1, v)]) 1 + readReg (machine [] [(1, v)]) 31) =
        [3899, 4001, 3900, 3904, 4000, -4, 0] ∧ InHandler (machine [] [(1, 3899)]) := by decide
/-- SUBI: `SUBI Xd, SP, #c` from 4000. -/
theorem witness_Subi :
    (0x3E70006C#32).extractLsb 31 28 = 3#4 ∧ InHandler idle ∧
      [101, -1, 100, 96, 0, 4004, 4000].map (fun c => readReg idle 28 - c) = [3899, 4001, 3900, 3904, 4000, -4, 0] ∧
      Fits idle.params.xlen (readReg (machine [] [(1, -9223372036854775807)]) 1 - 1) := by decide

/-- B: both values of the zero field; a target of 0 and another; and an offset that is no multiple of 4. -/
theorem witness_B :
    ((0x40000010#32).extractLsb 31 28 = 4#4 ∧ (0x40000010#32).extractLsb 27 18 = 0 ∧ (0x40040010#32).extractLsb 31 28 = 4#4 ∧
        (0x40040010#32).extractLsb 27 18 ≠ 0) ∧
      (InHandler idle ∧ wrap .w64 (pc idle + 16) ≠ 0 ∧ wrap .w64 (pc idle + -200) = 0 ∧ Fits .w64 (pc idle)) ∧
      (idle.phase = .exec ∧ next? (exec (.b 6) idle) ≠ none ∧ (6 : Int) % 4 ≠ 0 ∧ pc idle % 4 = 0) := by decide

/-- BL: the zero field; a target of 0 (LR is 0 after reset) and another; the invariant. -/
theorem witness_Bl :
    ((0x50000004#32).extractLsb 31 28 = 5#4 ∧ (0x50000004#32).extractLsb 27 18 = 0 ∧ (0x50800000#32).extractLsb 31 28 = 5#4 ∧
        (0x50800000#32).extractLsb 27 18 ≠ 0) ∧
      (InHandler idle ∧ MemCanonical idle ∧ wrap .w64 (lr idle + 0) = 0 ∧ wrap .w64 (lr idle + 4) ≠ 0) ∧
      idle.status = .running := by decide

/-- BR: the zero field; a register that holds 0 and one that does not. -/
theorem witness_Br :
    ((0x6F000000#32).extractLsb 31 28 = 6#4 ∧ (0x6F000000#32).extractLsb 22 0 = 0 ∧ (0x6F400000#32).extractLsb 31 28 = 6#4 ∧
        (0x6F400000#32).extractLsb 22 0 ≠ 0) ∧
      InHandler idle ∧ Fits .w64 (readReg idle 28) ∧ readReg idle 28 ≠ 0 ∧ readReg idle 5 = 0 ∧ Fits .w64 (pc idle) := by decide

/-- CBZ: the zero field; a register that holds 0, with a target of 0 and another, and one that holds -1. -/
theorem witness_Cbz :
    ((0x7F83FFFC#32).extractLsb 31 28 = 7#4 ∧ (0x7F83FFFC#32).extractLsb 22 18 = 0 ∧ (0x74840008#32).extractLsb 31 28 = 7#4 ∧
        (0x74840008#32).extractLsb 22 18 ≠ 0) ∧
      InHandler idle ∧ readReg idle 9 = 0 ∧ wrap .w64 (pc idle + 8) ≠ 0 ∧ wrap .w64 (pc idle + -200) = 0 ∧
      readReg (machine [] [(1, -1)]) 1 ≠ 0 := by decide

/-- LDUR: the last index inside and the first outside, and index -1; an `Empty` cell, an instruction and data. -/
theorem witness_Ldur :
    (0x810FFFF4#32).extractLsb 31 28 = 8#4 ∧ InHandler idle ∧ (idle.params.memCells : Int) = 1024 ∧
      Int.tdiv (readReg idle 31) 4 + Int.tdiv 4096 4 = 1024 ∧ Int.tdiv (readReg idle 31) 4 + Int.tdiv 4095 4 = 1023 ∧
      Int.tdiv (readReg idle 31) 4 + Int.tdiv (-4) 4 = -1 ∧ Int.tdiv (readReg idle 28) 8 + Int.tdiv (-4) 8 = 500 ∧
      readCell idle 1023 = .empty ∧ readCell (running 0x80FC00C8#32 []) 50 = .instr (wordCell 0x80FC00C8#32) ∧
      [3899, 4001, 3900, 3904, 4000, -4, 0].map (fun v => readCell (machine [(25, .data 100 v)] []) 25) =
        [3899, 4001, 3900, 3904, 4000, -4, 0].map (fun v => MemCell.data 100 v) ∧
      Fits .w64 3899 ∧ Fits .w64 (-9223372036854775808) ∧ ¬ Fits .w64 9223372036854775808 := by decide

/-- STUR: the same indices; an instruction cell; and an `Empty` one in a canonical memory. -/
theorem witness_Stur :
    (0x9FF00010#32).extractLsb 31 28 = 9#4 ∧ InHandler (running 0x90FC00C8#32 []) ∧ MemCanonical (running 0x90FC00C8#32 []) ∧
      Int.tdiv (readReg idle 31) 4 + Int.tdiv 4096 4 = 1024 ∧ Int.tdiv (readReg idle 28) 8 + Int.tdiv 16 8 = 502 ∧
      readCell (running 0x90FC00C8#32 []) 50 = .instr (wordCell 0x90FC00C8#32) ∧ readCell (running 0x90FC00C8#32 []) 0 = .empty := by decide

theorem witness_RegisterDestinationFrame : destReg? (.ldur 1 31 100) = some 1 ∧ next? (exec (.ldur 1 31 100) idle) ≠ none := by decide
theorem witness_JumpFrame : isJump (.cbz 31 8) = true ∧ next? (exec (.cbz 31 8) idle) ≠ none := by decide
theorem witness_BlFrame : next? (exec (.bl 4) idle) ≠ none ∧ (499 : Int) < tdiv (sp idle) 8 := by decide
theorem witness_StoreFrame : MemCanonical idle ∧ next? (exec (.stur 1 28 0) idle) ≠ none ∧ (499 : Int) ≠ operandIndex idle 28 0 := by decide

theorem witness_EffectiveIndex :
    ((8 : Int) % 8 = 0 ∧ (-16 : Int) % 8 = 0) ∧ ((0 : Int) ≤ 5 ∧ (0 : Int) ≤ 2 ∧ (5 : Int) % 4 + 2 % 4 < 4) := by decide

/-- `STUR X7, [SP, #-16]`, then a load from there: the store runs, and the base stays. -/
theorem witness_RoundTrip :
    InHandler (machine [] [(7, 77)]) ∧ MemCanonical (machine [] [(7, 77)]) ∧ Fits .w64 (readReg (machine [] [(7, 77)]) 7) ∧
      (next? (exec (.stur 7 28 (-16)) (machine [] [(7, 77)]))).map (fun t => (t.status, readReg t 28)) = some (.running, 4000) := by decide

/-- M10 both ways: the stack view of cell 498 is general address 1992. -/
theorem witness_Alias :
    4 * operandIndex (machine [] [(7, 77)]) .SP (-16) = 1992 ∧
      (next? (exec (.stur 7 .SP (-16)) (machine [] [(7, 77)]))).map (fun t => t.status) = some .running ∧
      (next? (exec (.stur 7 .XZR 1992) (machine [] [(7, 77)]))).map (fun t => t.status) = some .running := by decide

/-- A store to an instruction cell; a step that leaves one alone; and a BL over one, in cell 500. -/
theorem witness_Immutable :
    (InHandler (running 0x90FC00C8#32 []) ∧ CellExists (running 0x90FC00C8#32 []) (operandIndex (running 0x90FC00C8#32 []) 31 200) ∧
        readCell (running 0x90FC00C8#32 []) (operandIndex (running 0x90FC00C8#32 []) 31 200).toNat = .instr (wordCell 0x90FC00C8#32)) ∧
      (MemCanonical (machine [word 50 0x50000004#32, word 500 0x6F800000#32] []) ∧
        (one (machine [word 50 0x50000004#32, word 500 0x6F800000#32] [])).map (fun t => (readCell t 50, readCell t 500)) =
          some ((word 50 0x50000004#32).2, .empty)) ∧
      Enabled (machine [word 50 0x50000004#32, word 500 0x6F800000#32] []) ∧ tdiv (sp idle) 8 = 500 := by decide
theorem witness_Immutable_fetches : Fetches (machine [word 50 0x50000004#32, word 500 0x6F800000#32] []) (wordCell 0x50000004#32) (.bl 4) := by
  unfold Fetches; decide

theorem witness_ProgramBelow :
    next? (step (running 0x3E700060#32 [])) ≠ none ∧ (50 : Int) < Int.tdiv (4000 - (100 : Int)) 8 ∧
      readCell (running 0x3E700060#32 []) 50 = .instr (wordCell 0x3E700060#32) := by decide

theorem witness_Canonical : Memory.wf [word 50 0x3E700060#32, (499, .data 3992 1)] := by decide

/-- Two machines that differ in the `addr` fields of their cells. -/
theorem witness_AddressFields :
    SameButAddrs (machine [(25, .data 100 7), word 50 0x80FC0064#32] [])
      (machine [(25, .data 0 7), (50, .instr { addr := 0, code := .word 0x80FC0064#32 })] []) := by
  refine ⟨rfl, rfl, rfl, rfl, rfl, rfl, rfl, fun k => ?_⟩
  show sameButAddr (Memory.read [(25, .data 100 7), word 50 0x80FC0064#32] k)
    (Memory.read [(25, .data 0 7), (50, .instr { addr := 0, code := .word 0x80FC0064#32 })] k) = true
  by_cases h25 : 25 = k
  · subst h25; rfl
  · by_cases h50 : 50 = k
    · subst h50; rfl
    · simp [word, Memory.read, h25, h50, sameButAddr]

theorem witness_ParamsLegal : Config.Params.default.Legal ∧ ({ xlen := .w32, stackSize := 4000, memCells := 501 } : Config.Params).Legal := by
  decide
theorem witness_StepInvariant : (running 0x3E700060#32 []).Inv ∧ next? (step (running 0x3E700060#32 [])) ≠ none := ⟨running_inv, by decide⟩
theorem witness_HostInvariant :
    idle.Inv ∧ State.reset.Inv ∧ next? (hostEvent .reset idle) ≠ none ∧ next? (hostEvent (.load 1023 (.data 0 1)) State.reset) ≠ none ∧
      next? (hostEvent .start State.reset) ≠ none ∧ next? (hostEvent .cont idle) ≠ none :=
  ⟨idle_inv, by constructor <;> decide, by decide⟩

theorem witness_DecodeError : Enabled (running 0x90FC00C8#32 []) ∧ (one (running 0x90FC00C8#32 [])).map (fun t => t.status) = some .abortedDecodeError := by
  decide

/-- The three clauses: `SUBI SP, SP, #96` passes, `SUBI SP, SP, #104` faults, and `ADDI X1, SP, #0` leaves SP alone. -/
theorem witness_Checker :
    InHandler idle ∧ (next? (exec (.subi 28 28 96) idle)).map (fun t => (t.spMod, t.status)) = some (true, .running) ∧
      (next? (exec (.subi 28 28 104) idle)).map (fun t => (t.spMod, t.status)) = some (true, .faultedStackOverflow) ∧
      (next? (exec (.addi 1 28 0) idle)).map (fun t => (t.spMod, t.status)) = some (false, .running) := by decide

/-- Below (K2) and above (K4) the window; misaligned inside it, at its lower bound 3900; good at 3904; and BL. -/
theorem witness_Window :
    [0x3E700068#32, 0x1E700008#32, 0x3E700064#32, 0x3E700060#32].map (fun w => (one (running w [])).map sp) =
      [some 3896, some 4008, some 3900, some 3904] ∧ Enabled (running 0x50000004#32 []) ∧ pc (running 0x50000004#32 []) ≠ 0 := by decide
theorem witness_Window_inv : (running 0x3E700068#32 []).Inv ∧ (running 0x1E700008#32 []).Inv ∧ (running 0x3E700064#32 []).Inv :=
  ⟨by constructor <;> decide, by constructor <;> decide, by constructor <;> decide⟩
theorem witness_Window_bl : Fetches (running 0x50000004#32 []) (wordCell 0x50000004#32) (.bl 4) ∧ (running 0x50000004#32 []).Inv :=
  ⟨by unfold Fetches; decide, by constructor <;> decide⟩

theorem witness_StackFault : Enabled (running 0x3E700068#32 []) ∧ (one (running 0x3E700068#32 [])).map (fun t => t.status) = some .faultedStackOverflow := by
  decide

/-- Both halts, and both ways to the first. -/
theorem witness_Halts :
    (one (running 0x6F800000#32 [])).map (fun t => t.status) = some .haltedPcZero ∧ Enabled (machine [] [(.PC, 0)]) ∧
      (one (machine [] [(.PC, 0)])).map (fun t => t.status) = some .haltedPcZero ∧
      (one (machine [] [])).map (fun t => t.status) = some .haltedEndOfProgram := by decide

theorem witness_Terminal :
    Terminal ended ∧ HostEvent.cont ≠ .reset ∧ next? (hostEvent .cont ended) ≠ none ∧
      next? (hostEvent (.load 0 (.data 0 1)) { ended with phase := .load }) ≠ none := by decide

theorem witness_Livelock :
    Enabled (running 0x70800008#32 [(1, 1)]) ∧ pc (running 0x70800008#32 [(1, 1)]) ≠ 0 ∧ readReg (running 0x70800008#32 [(1, 1)]) 1 ≠ 0 := by decide
theorem witness_Livelock_fetches : Fetches (running 0x70800008#32 [(1, 1)]) (wordCell 0x70800008#32) (.cbz 1 8) := by
  unfold Fetches; decide

/-- `B #0` and `BR X29` at 200. -/
theorem witness_Hang :
    Enabled (running 0x40000000#32 []) ∧ pc (running 0x40000000#32 []) ≠ 0 ∧ Fits .w64 (pc (running 0x40000000#32 [])) ∧
      Enabled (running 0x6E800000#32 []) ∧ pc (running 0x6E800000#32 []) ≠ 0 ∧ Fits .w64 (pc (running 0x6E800000#32 [])) := by decide
theorem witness_Hang_fetches :
    Fetches (running 0x40000000#32 []) (wordCell 0x40000000#32) (.b 0) ∧ Fetches (running 0x6E800000#32 []) (wordCell 0x6E800000#32) (.br .PC) := by
  unfold Fetches; decide

/-- `CBZ X0, #0`; and `BL #0` at 200 with LR 200, below the stack cells, and at 2004, cell 501, above them. -/
theorem witness_SelfBranch :
    (Enabled (running 0x70000000#32 []) ∧ pc (running 0x70000000#32 []) = 200 ∧ readReg (running 0x70000000#32 []) 0 = 0) ∧
      (Enabled (running 0x50000000#32 [(.LR, 200)]) ∧ wrap .w64 (lr (running 0x50000000#32 [(.LR, 200)]) + 0) = 200 ∧
        Int.tdiv 200 4 < Int.tdiv (sp (running 0x50000000#32 [(.LR, 200)])) 8) ∧
      pc (machine [word 501 0x50000000#32] [(.LR, 2004), (.PC, 2004)]) = 2004 ∧ 500 < Int.tdiv 2004 4 := by decide
theorem witness_SelfBranch_fetches :
    Fetches (running 0x70000000#32 []) (wordCell 0x70000000#32) (.cbz 0 0) ∧
      Fetches (running 0x50000000#32 [(.LR, 200)]) (wordCell 0x50000000#32) (.bl 0) ∧
      Fetches (machine [word 501 0x50000000#32] [(.LR, 2004), (.PC, 2004)]) { addr := 2004, code := .word 0x50000000#32 } (.bl 0) := by
  unfold Fetches; decide

/-- A word and a record that decode, and `BR XZR` at 200. -/
theorem witness_Idioms :
    decodeWord 0x107C0005#32 = .ok (.addi 0 31 5) ∧
      decodeRecord .w64 { opcode := ['B', 'R'], operands := [['X', 'Z', 'R']] } = .ok (.br 31) ∧
      Enabled (running 0x6F800000#32 []) ∧ pc (running 0x6F800000#32 []) ≠ 0 ∧ InHandler idle ∧ Fits .w64 (readReg idle 28) := by decide
theorem witness_Idioms_fetches : Fetches (running 0x6F800000#32 []) (wordCell 0x6F800000#32) (.br .XZR) := by unfold Fetches; decide

/-- Reset of a used machine, and the reset state itself. -/
theorem witness_Reset : next? (hostEvent .reset ended) = some State.reset := by decide

theorem witness_Start :
    (State.reset.phase = .load ∧ State.reset.status = .running ∧ 51 ≤ State.reset.params.memCells ∧ readCell State.reset 50 = .empty ∧
        next? (hostEvent .start State.reset) ≠ none) ∧
      (idle.phase = .exec) ∧
      (readCell { State.reset with mem := [word 50 0x6F800000#32] } 50 = .instr (wordCell 0x6F800000#32)) := by decide

theorem witness_Load :
    (MemCanonical State.reset ∧ State.reset.phase = .load ∧ 1023 < State.reset.params.memCells ∧
        loadableCell .w64 (.data 0 (-9223372036854775808)) = true ∧ loadableCell .w64 (word 0 0#32).2 = true) ∧
      idle.phase = .exec ∧ State.reset.params.memCells ≤ 1024 := by decide

theorem witness_Phase : next? (hostEvent .cont idle) ≠ none ∧ HostEvent.cont ≠ .reset ∧ idle.phase = .exec := by decide

end Sys2Proof.Tests
end

section
/-!
PROOFS of the family 10_state: the hard-wired zero register (10_state R15) and the state after reset (10_state R26 to R28). First the facts about
events, instructions and host moves that the three statements need, each said once.
-/

namespace Sys2Proof.Machine

/-! ## What the end of a cycle writes to the fault record -/

/-- The causes of stages 4 and 5: a halt has none, and a StackFault has one of two (60_exceptions R131, R134). -/
def retireCauses : List Cause := [.none, .outOfWindow, .spMisaligned]

/-- An event that is taken writes its own record, and one that is not leaves the record alone. -/
theorem takeEvent_fault_cases (s : State) (st : Status) (f : FaultRecord) :
    (takeEvent s st f).fault = s.fault ∨ (takeEvent s st f).fault = f := by
  obtain ⟨h, -⟩ | ⟨-, h⟩ := takeEvent_status_cases s st f <;> rw [h]
  · exact .inl rfl
  · exact .inr rfl

theorem halt_fault_cases (s : State) (st : Status) (pc0 : Int) :
    (halt s st pc0).fault = s.fault ∨ (halt s st pc0).fault.cause ∈ retireCauses :=
  (takeEvent_fault_cases ..).imp_right fun h => by rw [halt, h]; exact List.mem_cons_self

/-- The stack check finds nothing else than a bad window or a bad alignment. -/
theorem spViolation_mem_retireCauses {p : Config.Params} {v : Int} {c : Cause} (h : spViolation p v = some c) : c ∈ retireCauses := by
  rw [spViolation_some h]; split <;> decide

theorem checkSp_fault_cases (s : State) (pc0 : Int) :
    (checkSp s pc0).fault = s.fault ∨ (checkSp s pc0).fault.cause ∈ retireCauses := by
  obtain ⟨h, -⟩ | ⟨-, c, hc, h⟩ := checkSp_cases s pc0 <;> rw [h]
  · exact .inl rfl
  · exact (takeEvent_fault_cases ..).imp_right fun hf => by rw [stackFault, hf]; exact spViolation_mem_retireCauses hc

/-- After a handler `s → u` that kept the fault record, stages 4 and 5 of a non-branch cycle keep it too, or write a halt or a StackFault. -/
theorem retireNext_fault_cases {s u : State} (hu : u.fault = s.fault) (pc0 : Int) :
    (retireNext u pc0).fault = s.fault ∨ (retireNext u pc0).fault.cause ∈ retireCauses := by
  rw [← hu]
  obtain h | h := checkSp_fault_cases (updatePcNext u pc0) pc0
  · rw [retireNext, h, updatePcNext]
    split
    · exact halt_fault_cases ..
    · exact .inl (writeReg_fault ..)
  · exact .inr h

/-- After a handler `s → u` that kept the fault record, stages 4 and 5 of a branch-class cycle keep it too, or write a halt or a StackFault. -/
theorem retireBranch_fault_cases {s u : State} (hu : u.fault = s.fault) (pc0 : Int) :
    (retireBranch u pc0).fault = s.fault ∨ (retireBranch u pc0).fault.cause ∈ retireCauses := by
  rw [← hu]
  obtain h | h := checkSp_fault_cases (updatePcBranch u pc0) pc0
  · rw [retireBranch, h, updatePcBranch]
    split
    · exact halt_fault_cases ..
    · exact .inl rfl
  · exact .inr h

/-! ## Raising a DecodeError -/

/-- A DecodeError raised while running is the whole next state. -/
theorem decodeError_of_running {s : State} (h : s.status = .running) (c : Cause) (info : Int) :
    decodeError s c (pc s) info = abortedState s c info := by
  rw [decodeError, takeEvent_eq, if_pos h]; rfl

/-- In a terminal status nothing is raised any more (60_exceptions R138). -/
theorem decodeError_of_not_running {s : State} (h : s.status ≠ .running) (c : Cause) (pc0 info : Int) : decodeError s c pc0 info = s := by
  rw [decodeError, takeEvent_eq, if_neg h]

theorem storedReg_decodeError (s : State) (c : Cause) (pc0 info : Int) (j : RegIdx) :
    storedReg (decodeError s c pc0 info) j = storedReg s j := storedReg_congr (takeEvent_regs ..) j

theorem storedReg_halt (s : State) (st : Status) (pc0 : Int) (j : RegIdx) : storedReg (halt s st pc0) j = storedReg s j :=
  storedReg_congr (takeEvent_regs ..) j

/-! ## The instructions -/

/-- What an instruction does to the fault record: nothing, a halt or a StackFault, or a DecodeError in place of its effect. -/
theorem exec_fault_cases {s t : State} {i : Instr} (he : exec i s = .next t) :
    t.fault = s.fault ∨ t.fault.cause ∈ retireCauses ∨ ∃ c info, t = decodeError s c (pc s) info := by
  obtain ⟨t', he', h⟩ := exec_cases i s
  cases he.symm.trans he'
  obtain ⟨c, info, rfl, -⟩ | ⟨rd, v, -, -, rfl⟩ | ⟨rd, rn, imm, -, -, -, rfl⟩ | ⟨v, -, rfl⟩ | ⟨-, rfl⟩ | ⟨imm, -, rfl⟩ := h
  · exact .inr (.inr ⟨c, info, rfl⟩)
  · exact (retireNext_fault_cases (writeReg_fault ..) _).imp_right .inl
  · exact (retireNext_fault_cases (writeCell_fault ..) _).imp_right .inl
  · exact (retireBranch_fault_cases (writeReg_fault ..) _).imp_right .inl
  · exact (retireBranch_fault_cases rfl _).imp_right .inl
  · have unwound := (writeReg_fault (writeReg (clearCells s (clearLo s) clearHi) .PC (lr s + imm)) .SP Config.stackTop).trans (writeReg_fault ..)
    exact (retireBranch_fault_cases unwound _).imp_right .inl

/-- What an instruction does to a register that is not the pc: it leaves the stored entry alone, unless it names the register as its
destination (never index 31), or is BL and the register is SP. -/
theorem exec_storedReg_cases {s t : State} {i : Instr} (he : exec i s = .next t) {j : RegIdx} (hj : j ≠ .PC) :
    storedReg t j = storedReg s j ∨ (destReg? i = some j ∧ j ≠ .XZR) ∨ (j = .SP ∧ ∃ imm, i = .bl imm) := by
  obtain ⟨t', he', h⟩ := exec_cases i s
  cases he.symm.trans he'
  obtain ⟨c, info, rfl, -⟩ | ⟨rd, v, hd, hx, rfl⟩ | ⟨rd, rn, imm, -, -, -, rfl⟩ | ⟨v, -, rfl⟩ | ⟨-, rfl⟩ | ⟨imm, hi, rfl⟩ := h
  · exact .inl (storedReg_decodeError ..)
  · by_cases hjd : j = rd
    · exact .inr (.inl ⟨hjd ▸ hd, hjd ▸ hx⟩)
    · left; rw [storedReg_retireNext, storedReg_writeReg]; simp [hj, hjd]
  · left; rw [storedReg_retireNext]; simp only [hj, false_and, if_false]; exact storedReg_congr (writeCell_regs ..) j
  · left; rw [storedReg_retireBranch, storedReg_writeReg]; simp [hj]
  · exact .inl (storedReg_retireBranch ..)
  · by_cases hjs : j = .SP
    · exact .inr (.inr ⟨hjs, imm, hi⟩)
    · left
      rw [storedReg_retireBranch, storedReg_writeReg, storedReg_writeReg]
      simp only [hj, hjs, false_and, if_false]
      exact storedReg_congr (clearCells_regs ..) j

/-- A destination of 31 is rejected, whatever the instruction would compute (10_state R15). -/
theorem exec_of_destReg_XZR {i : Instr} (h : destReg? i = some .XZR) (s : State) : exec i s = .next (decodeError s .writeToXzr (pc s) 31) := by
  cases i with
  | addi rd rn imm => cases h; rfl
  | add rd rn rm => cases h; rfl
  | subi rd rn imm => cases h; rfl
  | ldur rd rn imm => cases h; rfl
  | b | bl | br | cbz | stur => cases h

/-- Neither access primitive fails with WriteToXZR. -/
theorem memRead_not_writeToXzr (s : State) (k info : Int) : memRead s k ≠ .error (.writeToXzr, info) := by
  rw [ne_eq, memRead_error_iff]; simp

theorem memWrite_not_writeToXzr (s : State) (k n v info : Int) : memWrite s k n v ≠ .error (.writeToXzr, info) := by
  rw [ne_eq, memWrite_error_iff]; simp

/-- An instruction that leaves WriteToXZR in the fault record has destination 31, or found it there. -/
theorem exec_writeToXzr {s t : State} {i : Instr} (he : exec i s = .next t) (ht : t.fault.cause = .writeToXzr) :
    s.fault.cause = .writeToXzr ∨ destReg? i = some .XZR := by
  obtain h | h | ⟨c, info, rfl⟩ := exec_fault_cases he
  · exact .inl (h ▸ ht)
  · rw [ht] at h; exact absurd h (by decide)
  · by_cases hr : s.status = .running
    · rw [decodeError_of_running hr] at he
      obtain ⟨c', v, heq, hc⟩ := exec_aborted hr he rfl
      rw [decodeError_of_running hr] at ht heq
      obtain rfl : c = .writeToXzr := ht
      obtain rfl : c' = .writeToXzr := (congrArg (fun u => u.fault.cause) heq).symm
      obtain ⟨-, -, hd⟩ | ⟨rd, rn, imm, -, -, hm⟩ | ⟨rd, rn, imm, -, hm⟩ := hc
      · exact .inr hd
      · exact (memRead_not_writeToXzr _ _ _ hm).elim
      · exact (memWrite_not_writeToXzr _ _ _ _ _ hm).elim
    · rw [decodeError_of_not_running hr] at ht; exact .inl ht

/-- No instruction changes stored entry 31. -/
theorem exec_keeps_XZR {s t : State} {i : Instr} (he : exec i s = .next t) : storedReg t .XZR = storedReg s .XZR := by
  obtain h | ⟨-, hx⟩ | ⟨hs, -⟩ := exec_storedReg_cases he (j := .XZR) (by decide)
  · exact h
  · exact absurd rfl hx
  · exact absurd hs (by decide)

/-! ## A step and the host's events -/

/-- No step changes stored entry 31. -/
theorem step_keeps_XZR {s t : State} (h : step s = .next t) : storedReg t .XZR = storedReg s .XZR := by
  obtain ⟨-, hs⟩ | ⟨-, -, hs⟩ | ⟨-, -, ⟨c, info, -, hs⟩ | ⟨-, hs⟩ | ⟨c, e, -, -, hs⟩ | ⟨c, i, -, -, hs⟩⟩ := step_cases s <;> rw [h] at hs
  · cases hs; rfl
  · cases hs; exact storedReg_halt ..
  · cases hs; exact storedReg_decodeError ..
  · cases hs; exact storedReg_halt ..
  · cases hs; exact storedReg_decodeError ..
  · exact exec_keeps_XZR (s := latch (beginCycle s) c) hs.symm

/-- A step of an engine that is not enabled is ignored (70_reset_and_hazards R165). -/
theorem step_of_not_enabled {s : State} (h : ¬ Enabled s) : step s = .next s := if_neg h

/-- An accepted load write is one cell write. -/
theorem hostEvent_load_eq_next {k : Nat} {c : MemCell} {s t : State} (h : hostEvent (.load k c) s = .next t) : t = writeCell s k c := by
  simp only [hostEvent, loadEvent] at h
  split at h
  · cases h
  · split_ifs at h
    cases h; rfl

/-- `start` is accepted in the `Load` phase (70_reset_and_hazards R164). -/
theorem hostEvent_start_of_load {s : State} (h : s.phase = .load) : hostEvent .start s = .next (startExec s) := by
  rw [hostEvent, startEvent, h]

/-- An accepted `start` does nothing else. -/
theorem hostEvent_start_eq_next {s t : State} (h : hostEvent .start s = .next t) : t = startExec s := by
  simp only [hostEvent, startEvent] at h
  split at h <;> cases h
  rfl

/-- The registers after `start`: the pc is the entry point, and every other is as before. -/
theorem storedReg_startExec (s : State) (j : RegIdx) : storedReg (startExec s) j = if j = .PC then 200 else storedReg s j :=
  storedReg_setReg s .PC j Config.entryPc

theorem pc_startExec (s : State) : pc (startExec s) = 200 := by simp [pc, readReg, storedReg_startExec]

/-! ## The state after reset -/

/-- The registers after reset (10_state R26). -/
theorem storedReg_resetWith (p : Config.Params) (i : RegIdx) :
    storedReg (State.resetWith p) i = if i = .SP then 4000 else if i = .PC then 100 else 0 := by
  have table : ∀ j : RegIdx, resetRegs.get j = if j = .SP then 4000 else if j = .PC then 100 else 0 := by decide
  exact table i

/-- Index 31 is stored as 0 at reset, so a read gives what is stored at every index. -/
theorem readReg_resetWith (p : Config.Params) (i : RegIdx) :
    readReg (State.resetWith p) i = if i = .SP then 4000 else if i = .PC then 100 else 0 := by
  rw [← storedReg_resetWith p, readReg]
  split
  · next h => subst h; rw [storedReg_resetWith]; simp
  · rfl

/-- `State.reset` and the reset event give the same state up to the parameters, which the event keeps. -/
theorem eq_resetWith_of_reset {s r : State} (h : r = State.reset ∨ hostEvent .reset s = .next r) : ∃ p, r = State.resetWith p := by
  obtain h | h := h
  · exact ⟨_, h⟩
  · cases h; exact ⟨s.params, rfl⟩

/-! ## The statements -/

/-- Settles O16: reads by definition, the rejection by the instructions with a destination, WriteToXZR's only source by the fault record's history, and
the stored entry event by event. -/
theorem xzrIsNeverWritten : Obligations.XzrIsNeverWritten := by
  refine ⟨fun s => if_pos rfl, fun s i hs hd => ?_, fun s t i hd he ht => ?_, fun s t e he => ?_⟩
  · obtain ⟨hrun, -, -⟩ := hs
    rw [exec_of_destReg_XZR hd, decodeError_of_running hrun]
  · exact (exec_writeToXzr he ht).resolve_right hd
  · cases e with
    | reset => cases he; exact .inr ⟨rfl, storedReg_resetWith s.params .XZR⟩
    | load k c => rw [hostEvent_load_eq_next he]; exact .inl (storedReg_congr (writeCell_regs ..) _)
    | start => rw [hostEvent_start_eq_next he]; exact .inl (storedReg_startExec s .XZR)
    | cont => exact .inl (step_keeps_XZR he)

/-- Settles O51, from the register table of the reset state and its empty cell list. -/
theorem resetLeavesTheSpecsValues : Obligations.ResetLeavesTheSpecsValues := by
  intro s r hr
  obtain ⟨p, rfl⟩ := eq_resetWith_of_reset hr
  have general : ∀ i : RegIdx, i.val ≤ 27 → readReg (State.resetWith p) i = 0 := by
    intro i hi
    have hsp : i ≠ .SP := by rintro rfl; exact absurd hi (by decide)
    have hpc : i ≠ .PC := by rintro rfl; exact absurd hi (by decide)
    rw [readReg_resetWith, if_neg hsp, if_neg hpc]
  exact ⟨readReg_resetWith p .XZR, storedReg_resetWith p .XZR, readReg_resetWith p .PC, readReg_resetWith p .SP, readReg_resetWith p .LR,
    general, fun _ => rfl⟩

/-- Settles O52: the control fields are the reset state's own, no cycle runs in the `Load` phase, and `start` is accepted there. -/
theorem resetLeavesTheControlStateClear : Obligations.ResetLeavesTheControlStateClear := by
  intro s r hr
  obtain ⟨p, rfl⟩ := eq_resetWith_of_reset hr
  have ignored : step (State.resetWith p) = .next (State.resetWith p) := step_of_not_enabled fun h => by cases h.1
  have hpc : pc (State.resetWith p) = 100 := readReg_resetWith p .PC
  exact ⟨rfl, rfl, rfl, rfl, rfl, ignored, by rw [hpc]; decide,
    startExec (State.resetWith p), hostEvent_start_of_load rfl, pc_startExec _, startExec_phase _⟩

end Sys2Proof.Machine
end

section
/-!
PROOFS of the family 20_memory: what an instruction and a step can do to one cell, and that only BL's clearing ever changes an instruction cell
(20_memory R39).
-/

namespace Sys2Proof.Machine

/-! ## The cells after an instruction -/

/-- The cells after BL: Empty from the cell of SP through cell 500, and as before elsewhere (42_branch R102). -/
theorem readCell_of_exec_bl {s t : State} {imm : Int} (he : exec (.bl imm) s = .next t) (k : Nat) :
    readCell t k = if tdiv (sp s) 8 ≤ (k : Int) ∧ (k : Int) ≤ 500 then .empty else readCell s k := by
  have hm : t.mem = (clearCells s (clearLo s) clearHi).mem := by cases he; simp
  rw [readCell_congr hm]
  exact readCell_clearCells s (clearLo s) clearHi k

/-- A STUR whose write is refused raises the DecodeError of the refusal. -/
theorem exec_stur_of_error {s : State} {rd rn : RegIdx} {imm info : Int} {c : Cause}
    (h : memWrite s (operandIndex s rn imm) (stride rn) (readReg s rd) = .error (c, info)) :
    exec (.stur rd rn imm) s = .next (decodeError s c (pc s) info) := by
  simp only [exec, execStur, h]

/-- What an instruction does to a cell: it leaves it alone, or it is a STUR to it and the cell holds no instruction, or it is a BL and the cell lies
in its clearing range. -/
theorem exec_readCell_cases {s t : State} {i : Instr} (hm : MemCanonical s) (he : exec i s = .next t) (k : Nat) :
    readCell t k = readCell s k ∨
      (∃ rd rn imm, i = .stur rd rn imm ∧ (k : Int) = operandIndex s rn imm ∧ ∀ c, readCell s k ≠ .instr c) ∨
      (∃ imm, i = .bl imm ∧ tdiv (sp s) 8 ≤ (k : Int) ∧ (k : Int) ≤ 500 ∧ readCell t k = .empty) := by
  obtain ⟨t', he', h⟩ := exec_cases i s
  cases he.symm.trans he'
  obtain ⟨c, info, rfl, -⟩ | ⟨rd, v, -, -, rfl⟩ | ⟨rd, rn, imm, hi, ⟨hlo, -⟩, hc, rfl⟩ | ⟨v, -, rfl⟩ | ⟨-, rfl⟩ | ⟨imm, rfl, -⟩ := h
  · exact .inl (readCell_congr (takeEvent_mem ..) k)
  · exact .inl (readCell_congr (by simp) k)
  · rw [readCell_congr (retireNext_mem ..), readCell_writeCell hm]
    by_cases hk : k = (operandIndex s rn imm).toNat
    · exact .inr (.inl ⟨rd, rn, imm, hi, by omega, hk ▸ hc⟩)
    · exact .inl (if_neg hk)
  · exact .inl (readCell_congr (by simp) k)
  · exact .inl (readCell_congr (retireBranch_mem ..) k)
  · have hbl := readCell_of_exec_bl he k
    split_ifs at hbl with hk
    · exact .inr (.inr ⟨imm, rfl, hk.1, hk.2, hbl⟩)
    · exact .inl hbl

/-! ## The cells after a step -/

/-- A step that fetches `i` is `exec i` after the latch. -/
theorem step_of_fetches {s : State} {c : InstrCell} {i : Instr} (hen : Enabled s) (hpc : pc s ≠ 0) (hf : Fetches s c i) :
    step s = exec i (latch (beginCycle s) c) := by
  obtain ⟨hfetch, hdec⟩ := hf
  rw [step, contEvent, if_pos hen, cycle, if_neg hpc, hfetch]
  simp only [runCell, latch_params, beginCycle_params, hdec]

/-- What a step does to the cells: nothing, or what the instruction it fetches does. -/
theorem step_mem_cases {s t : State} (h : step s = .next t) :
    t.mem = s.mem ∨ (Enabled s ∧ ∃ c i, Fetches s c i ∧ exec i (latch (beginCycle s) c) = .next t) := by
  obtain ⟨-, hs⟩ | ⟨-, -, hs⟩ | ⟨hen, -, ⟨c, info, -, hs⟩ | ⟨-, hs⟩ | ⟨c, e, -, -, hs⟩ | ⟨c, i, hf, hd, hs⟩⟩ := step_cases s <;> rw [h] at hs
  · cases hs; exact .inl rfl
  · cases hs; exact .inl (takeEvent_mem ..)
  · cases hs; exact .inl (takeEvent_mem ..)
  · cases hs; exact .inl (takeEvent_mem ..)
  · cases hs; exact .inl (takeEvent_mem ..)
  · exact .inr ⟨hen, c, i, ⟨hf, hd⟩, hs.symm⟩

/-- A step leaves an instruction cell alone, or it is a BL that empties it: a store finds no way to it (20_memory R39). -/
theorem step_instrCell_cases {s t : State} {k : Nat} {c : InstrCell} (hm : MemCanonical s) (h : step s = .next t)
    (hc : readCell s k = .instr c) :
    readCell t k = .instr c ∨
      (readCell t k = .empty ∧ tdiv (sp s) 8 ≤ (k : Int) ∧ (k : Int) ≤ 500 ∧ Enabled s ∧ ∃ cl imm, Fetches s cl (.bl imm)) := by
  obtain hmem | ⟨hen, cl, i, hf, he⟩ := step_mem_cases h
  · exact .inl ((readCell_congr hmem k).trans hc)
  · obtain hsame | ⟨rd, rn, imm, -, -, hno⟩ | ⟨imm, rfl, hlo, hhi, hempty⟩ := exec_readCell_cases (s := latch (beginCycle s) cl) hm he k
    · exact .inl (hsame.trans hc)
    · exact absurd hc (hno c)
    · exact .inr ⟨hempty, hlo, hhi, hen, cl, imm, hf⟩

/-! ## The statement -/

/-- Settles O34: the refusal of MemWrite, what a step can do to an instruction cell, and BL's clearing at the latched state. -/
theorem instructionCellsAreImmutable : Obligations.InstructionCellsAreImmutable := by
  refine ⟨fun s rd rn imm c hs hex hc => ?_, fun s t k c hm h hc => step_instrCell_cases hm h hc, fun s t k cl imm hen hpc hf h hlo hhi => ?_⟩
  · obtain ⟨hrun, -, -⟩ := hs
    have refused := (memWrite_error_iff s _ (stride rn) _ (readReg s rd) .storeToInstruction).2 ⟨rfl, .inr ⟨hex, ⟨c, hc⟩, rfl⟩⟩
    rw [exec_stur_of_error refused, decodeError_of_running hrun]
  · rw [step_of_fetches hen hpc hf] at h
    exact (readCell_of_exec_bl h k).trans (if_pos ⟨hlo, hhi⟩)

end Sys2Proof.Machine
end

section
/-!
PROOFS of the family 30_encoding: the step that fetches a cell the decoder refuses (40_fetch_decode R74), and the refusal of a word whose must-be-zero
field is not zero (30_encoding R61).
-/

namespace Sys2Proof

/-- Every opcode is the one of its `op` number (30_encoding R56). -/
@[simp] theorem opcodeOfNumber_opcodeNumber (op : Opcode) : opcodeOfNumber (opcodeNumber op) = some op := by cases op <;> rfl

/-- A word with a legal `op` whose zero field is not zero is refused, and `info` is the whole word (30_encoding R61). -/
theorem decodeWord_of_reserved_nonzero {w : BitVec 32} (op : Opcode) (hop : fieldOp w = opcodeNumber op) (hz : reservedZero op w = false) :
    decodeWord w = .error { cause := .reservedFieldNonZero, info := w.toNat } := by
  simp [decodeWord, hop, hz]

namespace Machine

/-- A step that fetches a cell the decoder refuses raises the DecodeError of the refusal after the latch, and changes nothing else. -/
theorem step_of_decode_error {s : State} {c : InstrCell} {e : DecodeFailure} (hen : Enabled s) (hpc : pc s ≠ 0)
    (hf : fetchCell s (pc s) = .instr c) (hd : decodeCode s.params.xlen c.code = .error e) :
    step s = .next (abortedState { s with spMod := false, last := some c } e.cause e.info) := by
  rw [step, contEvent, if_pos hen, cycle, if_neg hpc, hf]
  simp only [runCell, latch_params, beginCycle_params, hd]
  exact congrArg _ (decodeError_of_running (s := latch (beginCycle s) c) hen.2 e.cause e.info)

/-- Settles O5: each format's zero field at word level, and the operand count at record level, make the decoder refuse. -/
theorem reservedFieldAborts : Obligations.ReservedFieldAborts := by
  refine ⟨fun s c w hen hpc hf hw hbad => ?_, fun s c r op hen hpc hf hr hop hlong => ?_⟩
  · have refused : decodeWord w = .error { cause := .reservedFieldNonZero, info := w.toNat } := by
      obtain ⟨hop, hz⟩ | ⟨hop | hop, hz⟩ | ⟨hop, hz⟩ | ⟨hop, hz⟩ := hbad
      · exact decodeWord_of_reserved_nonzero .add hop (decide_eq_false hz)
      · exact decodeWord_of_reserved_nonzero .b hop (decide_eq_false hz)
      · exact decodeWord_of_reserved_nonzero .bl hop (decide_eq_false hz)
      · exact decodeWord_of_reserved_nonzero .br hop (decide_eq_false hz)
      · exact decodeWord_of_reserved_nonzero .cbz hop (decide_eq_false hz)
    exact step_of_decode_error hen hpc hf (by rw [hw]; exact refused)
  · have refused : decodeRecord s.params.xlen r = .error (operandCountFailure s.params.xlen r.operands) := by
      simp only [decodeRecord, hop, decodeOperands_count hlong.ne']
    exact ⟨_, step_of_decode_error hen hpc hf (by rw [hr]; exact refused)⟩

end Machine

end Sys2Proof
end

section
/-!
PROOFS of the family 40_fetch_decode: the halt on a pc of 0 before the fetch (40_fetch_decode R71), and the five steps of the fetch in order (R72, R73).
First what each step of the fetch answers, then what the cycle makes of each answer.
-/

namespace Sys2Proof.Machine

/-- A halt while running is the whole next state. -/
theorem halt_of_running {s : State} (h : s.status = .running) (st : Status) (pc0 : Int) : halt s st pc0 = haltedState s st pc0 := by
  rw [halt, takeEvent_eq, if_pos h]; rfl

/-! ## The answers of the fetch -/

/-- The fetch index is the library's truncating division (20_memory R32, R34). -/
theorem fetchIndex_eq_tdiv (pc0 : Int) : fetchIndex pc0 = Int.tdiv pc0 4 := tdiv_eq_tdiv pc0 (by decide)

/-- A pc that is a multiple of 4 passes the first check. -/
theorem not_misaligned {pc0 : Int} (h : pc0 % 4 = 0) : ¬ pc0 % Config.instrBytes ≠ 0 := not_not_intro h

theorem fetchCell_of_misaligned {pc0 : Int} (h : pc0 % 4 ≠ 0) (s : State) : fetchCell s pc0 = .error .pcMisaligned pc0 := if_pos h

theorem fetchCell_of_not_cellExists {s : State} {pc0 : Int} (hal : pc0 % 4 = 0) (hex : ¬ CellExists s (Int.tdiv pc0 4)) :
    fetchCell s pc0 = .error .fetchIndexOutOfRange pc0 := by
  rw [← fetchIndex_eq_tdiv] at hex
  rw [fetchCell, if_neg (not_misaligned hal), if_neg hex]

theorem fetchCell_of_empty {s : State} {pc0 : Int} (hal : pc0 % 4 = 0) (hex : CellExists s (Int.tdiv pc0 4))
    (hc : readCell s (Int.tdiv pc0 4).toNat = .empty) : fetchCell s pc0 = .endOfProgram := by
  rw [← fetchIndex_eq_tdiv] at hex hc
  rw [fetchCell, if_neg (not_misaligned hal), if_pos hex, hc]

theorem fetchCell_of_data {s : State} {pc0 v : Int} {a : Nat} (hal : pc0 % 4 = 0) (hex : CellExists s (Int.tdiv pc0 4))
    (hc : readCell s (Int.tdiv pc0 4).toNat = .data a v) : fetchCell s pc0 = .error .fetchedDataRecord (Int.tdiv pc0 4) := by
  rw [← fetchIndex_eq_tdiv] at hex hc ⊢
  rw [fetchCell, if_neg (not_misaligned hal), if_pos hex, hc]

theorem fetchCell_of_instr {s : State} {pc0 : Int} {c : InstrCell} (hal : pc0 % 4 = 0) (hex : CellExists s (Int.tdiv pc0 4))
    (hc : readCell s (Int.tdiv pc0 4).toNat = .instr c) : fetchCell s pc0 = .instr c := by
  rw [← fetchIndex_eq_tdiv] at hex hc
  exact (fetchCell_instr_iff s pc0 c).2 ⟨hal, hex, hc⟩

/-! ## The step of an enabled state -/

/-- A step of an enabled engine is one cycle (40_fetch_decode R70). -/
theorem step_of_enabled {s : State} (h : Enabled s) : step s = cycle s := if_pos h

/-- A fetch that fails aborts the run with its cause and `info`; nothing is latched. -/
theorem step_of_fetch_error {s : State} {c : Cause} {info : Int} (hen : Enabled s) (hpc : pc s ≠ 0) (hf : fetchCell s (pc s) = .error c info) :
    step s = .next (abortedState { s with spMod := false } c info) := by
  rw [step_of_enabled hen, cycle, if_neg hpc, hf]
  exact congrArg _ (decodeError_of_running (s := beginCycle s) hen.2 c info)

/-- A fetch that finds the end of the program halts the run; nothing is latched (40_fetch_decode R73). -/
theorem step_of_fetch_endOfProgram {s : State} (hen : Enabled s) (hpc : pc s ≠ 0) (hf : fetchCell s (pc s) = .endOfProgram) :
    step s = .next (haltedState { s with spMod := false } .haltedEndOfProgram (pc s)) := by
  rw [step_of_enabled hen, cycle, if_neg hpc, hf]
  exact congrArg _ (halt_of_running (s := beginCycle s) hen.2 .haltedEndOfProgram (pc s))

/-- A fetched instruction cell is latched and run. -/
theorem step_of_fetch_instr {s : State} {c : InstrCell} (hen : Enabled s) (hpc : pc s ≠ 0) (hf : fetchCell s (pc s) = .instr c) :
    step s = runCell { s with spMod := false, last := some c } c := by
  rw [step_of_enabled hen, cycle, if_neg hpc, hf]; rfl

/-! ## The statements -/

/-- Settles O10: the cycle tests the pc before the fetch, and the halt is taken because the status is `Running`. -/
theorem pcZeroHaltsBeforeTheFetch : Obligations.PcZeroHaltsBeforeTheFetch := by
  intro s hen hpc
  rw [step_of_enabled hen, cycle, if_pos hpc, hpc]
  exact congrArg _ (halt_of_running (s := beginCycle s) hen.2 .haltedPcZero 0)

/-- Settles O11, step by step: the answer of the fetch, and what the cycle makes of it. -/
theorem fetchChecksInOrder : Obligations.FetchChecksInOrder := by
  intro s hen hpc
  refine ⟨fun hmis => ?misaligned, fun hal hex => ?outside, fun hal hex hc => ?empty, fun a v hal hex hc => ?data, fun c hal hex hc => ?instr⟩
  case misaligned => exact step_of_fetch_error hen hpc (fetchCell_of_misaligned hmis s)
  case outside => exact step_of_fetch_error hen hpc (fetchCell_of_not_cellExists hal hex)
  case empty => exact step_of_fetch_endOfProgram hen hpc (fetchCell_of_empty hal hex hc)
  case data => exact step_of_fetch_error hen hpc (fetchCell_of_data hal hex hc)
  case instr => exact step_of_fetch_instr hen hpc (fetchCell_of_instr hal hex hc)

end Sys2Proof.Machine
end

section
/-!
PROOFS of the family 41_alu: ADDI, ADD and SUBI (41_alu R90 to R92). First what a legal word decodes to, then the end of a non-branch cycle that wrote
one register, destination by destination; the three statements differ only in the opcode and the integer that is written.
-/

namespace Sys2Proof

/-- A word with a legal `op` decodes by its row: the fields, or the refusal of a zero field that is not zero (30_encoding R56, R61). -/
theorem decodeWord_of_fieldOp {w : BitVec 32} (op : Opcode) (hop : fieldOp w = opcodeNumber op) :
    decodeWord w = if reservedZero op w then .ok (instrOfFields op w) else .error { cause := .reservedFieldNonZero, info := w.toNat } := by
  simp only [decodeWord, hop, opcodeOfNumber_opcodeNumber]

namespace Machine

/-! ## The register file's updates -/

/-- Of two stores to one entry the later one stays. -/
theorem setReg_setReg_self (s : State) (i : RegIdx) (v w : Int) : setReg (setReg s i v) i w = setReg s i w := by
  simp [setReg]

theorem readReg_setReg_of_ne (s : State) {i j : RegIdx} (h : j ≠ i) (v : Int) : readReg (setReg s i v) j = readReg s j := by
  simp only [readReg, storedReg_setReg, if_neg h]

@[simp] theorem pc_setReg_PC (s : State) (v : Int) : pc (setReg s .PC v) = v := by
  simp [pc, readReg]

/-- A write to another register than 28 and 31 only stores the wrapped value. -/
theorem writeReg_eq_setReg {i : RegIdx} (hsp : i ≠ .SP) (hxzr : i ≠ .XZR) (s : State) (v : Int) :
    writeReg s i v = setReg s i (wrap s.params.xlen v) := by
  rw [writeReg, if_neg hxzr, if_neg hsp]

@[simp] theorem sp_spWritten (s : State) (v : Int) : sp (spWritten s v) = v := by
  have hsp : readReg (setReg (setReg s .SP v) .PC (wrap s.params.xlen (pc s + 4))) .SP = v := by
    rw [readReg_setReg_of_ne _ (by decide)]; simp [readReg]
  exact hsp

/-! ## Stages 4 and 5 after a register write -/

/-- The window check comes first (44_sp_checker R121). -/
theorem spViolation_of_outside {p : Config.Params} {v : Int} (h : v < 4000 - (p.stackSize : Int) ∨ 4000 < v) :
    spViolation p v = some .outOfWindow := if_pos h

/-- An SP inside the window is checked for its alignment (44_sp_checker R123). -/
theorem spViolation_of_misaligned {p : Config.Params} {v : Int} (hlo : 4000 - (p.stackSize : Int) ≤ v) (hhi : v ≤ 4000) (hal : v % 8 ≠ 0) :
    spViolation p v = some .spMisaligned := by
  have hin : ¬ (v < stackBase p ∨ Config.stackTop < v) := not_or.2 ⟨not_lt.2 hlo, not_lt.2 hhi⟩
  exact (if_neg hin).trans (if_pos hal)

/-- A StackFault raised while running is the whole next state. -/
theorem stackFault_of_running {s : State} (h : s.status = .running) (c : Cause) (pc0 v : Int) :
    stackFault s c pc0 v = stackFaultedState s c pc0 v := by
  rw [stackFault, takeEvent_eq, if_pos h]; rfl

/-- A bad SP that a running cycle wrote is a StackFault, and the write stays (44_sp_checker R122). -/
theorem checkSp_spWritten_of_violation {s : State} {v : Int} {c : Cause} (hrun : s.status = .running) (hv : spViolation s.params v = some c)
    (pc0 : Int) : checkSp (spWritten s v) pc0 = stackFaultedState (spWritten s v) c pc0 v := by
  have hv' : spViolation (spWritten s v).params (sp (spWritten s v)) = some c := by rw [sp_spWritten]; exact hv
  have hmod : (spWritten s v).spMod = true := rfl
  rw [checkSp, if_pos hmod, hv', sp_spWritten]
  exact stackFault_of_running (s := spWritten s v) hrun c pc0 v

/-- Stage 4 adds 4 to a pc that is not 0, and stage 5 follows (40_fetch_decode R77). -/
theorem retireNext_of_pc_ne_zero {s : State} (h : pc s ≠ 0) (pc0 : Int) :
    retireNext s pc0 = checkSp (setReg s .PC (wrap s.params.xlen (pc s + 4))) pc0 := by
  rw [retireNext, updatePcNext, if_neg h, writeReg_eq_setReg (by decide) (by decide)]; rfl

/-- A cycle that did not write SP ends with the increment. -/
theorem retireNext_of_not_spMod {s : State} (hm : s.spMod = false) (h : pc s ≠ 0) (pc0 : Int) :
    retireNext s pc0 = setReg s .PC (wrap s.params.xlen (pc s + 4)) := by
  rw [retireNext_of_pc_ne_zero h, checkSp_of_not_spMod (by exact hm)]

/-- Stage 4 halts on a pc of 0, and stage 5 has nothing to check unless the cycle wrote SP (40_fetch_decode R78). -/
theorem retireNext_of_pc_eq_zero {s : State} (hrun : s.status = .running) (hm : s.spMod = false) (h : pc s = 0) (pc0 : Int) :
    retireNext s pc0 = haltedState s .haltedPcZero pc0 := by
  rw [retireNext, updatePcNext, if_pos h, halt_of_running hrun]
  exact checkSp_of_not_spMod (s := haltedState s .haltedPcZero pc0) hm pc0

/-! ## The result of an ALU instruction, by its destination -/

theorem aluResult_of_ne_XZR {rd : RegIdx} (h : rd ≠ .XZR) (v : Int) (s : State) :
    aluResult rd v s = retireNext (writeReg s rd v) (pc s) := if_neg h

/-- A general destination gets the wrapped value, and the pc is 4 more. -/
theorem aluResult_general {s : State} (hs : InHandler s) {rd : RegIdx} (hsp : rd ≠ .SP) (hpc : rd ≠ .PC) (hxzr : rd ≠ .XZR) (v : Int) :
    aluResult rd v s = setReg (setReg s rd (wrap s.params.xlen v)) .PC (wrap s.params.xlen (pc s + 4)) := by
  obtain ⟨-, hm, hpc0⟩ := hs
  have keep : pc (setReg s rd (wrap s.params.xlen v)) = pc s := readReg_setReg_of_ne s hpc.symm _
  rw [aluResult_of_ne_XZR hxzr, writeReg_eq_setReg hsp hxzr, retireNext_of_not_spMod (by exact hm) (by rwa [keep]), keep]; rfl

/-- Destination 29 with a value that is not 0: the increment comes on top of it. -/
theorem aluResult_PC_of_ne_zero {s : State} (hs : InHandler s) {v : Int} (hv : wrap s.params.xlen v ≠ 0) :
    aluResult .PC v s = setReg s .PC (wrap s.params.xlen (wrap s.params.xlen v + 4)) := by
  obtain ⟨-, hm, -⟩ := hs
  have hpc : pc (setReg s .PC (wrap s.params.xlen v)) = wrap s.params.xlen v := pc_setReg_PC ..
  rw [aluResult_of_ne_XZR (by decide), writeReg_eq_setReg (by decide) (by decide), retireNext_of_not_spMod (by exact hm) (by rwa [hpc]), hpc,
    setReg_setReg_self]; rfl

/-- Destination 29 with the value 0 halts in this cycle. -/
theorem aluResult_PC_of_eq_zero {s : State} (hs : InHandler s) {v : Int} (hv : wrap s.params.xlen v = 0) :
    aluResult .PC v s = haltedState (setReg s .PC 0) .haltedPcZero (pc s) := by
  obtain ⟨hrun, hm, -⟩ := hs
  rw [aluResult_of_ne_XZR (by decide), writeReg_eq_setReg (by decide) (by decide), hv]
  exact retireNext_of_pc_eq_zero (s := setReg s .PC 0) hrun hm (pc_setReg_PC s 0) _

/-- Destination 28: SP and the pc are written, and the new SP is checked. -/
theorem aluResult_SP {s : State} (hpc : pc s ≠ 0) (v : Int) :
    aluResult .SP v s = checkSp (spWritten s (wrap s.params.xlen v)) (pc s) := by
  have keep : pc (writeReg s .SP v) = pc s := readReg_setReg_of_ne s (by decide) _
  rw [aluResult_of_ne_XZR (by decide), retireNext_of_pc_ne_zero (by rwa [keep]), keep]; rfl

/-- What an instruction of the common shape does, for each kind of destination (41_alu, opening). -/
theorem aluResult_writesRegister {s : State} (hs : InHandler s) (rd : RegIdx) (v : Int) : WritesRegister s rd v (.next (aluResult rd v s)) := by
  have ⟨hrun, _, hpc0⟩ := hs
  refine ⟨?xzr, fun hsp hpc hxzr => ?general, ?pcNotZero, ?pcZero, ?spGood, ?spOutside, ?spMisaligned⟩
  case xzr =>
    rintro rfl
    exact congrArg _ (decodeError_of_running hrun .writeToXzr 31)
  case general => exact congrArg _ (aluResult_general hs hsp hpc hxzr v)
  case pcNotZero =>
    rintro rfl hv
    exact congrArg _ (aluResult_PC_of_ne_zero hs hv)
  case pcZero =>
    rintro rfl hv
    exact congrArg _ (aluResult_PC_of_eq_zero hs hv)
  case spGood =>
    rintro rfl hok
    rw [aluResult_SP hpc0, checkSp_of_ok (by rw [sp_spWritten]; exact hok)]
  case spOutside =>
    rintro rfl hout
    rw [aluResult_SP hpc0, checkSp_spWritten_of_violation hrun (spViolation_of_outside hout)]
  case spMisaligned =>
    rintro rfl hlo hhi hal
    rw [aluResult_SP hpc0, checkSp_spWritten_of_violation hrun (spViolation_of_misaligned hlo hhi hal)]

/-- The registers beside the pc after an instruction of the common shape: the destination, and no other. -/
theorem readReg_aluResult {rd j : RegIdx} (hxzr : rd ≠ .XZR) (hj : j ≠ .PC) (v : Int) (s : State) :
    readReg (aluResult rd v s) j = if j = rd then wrap s.params.xlen v else readReg s j := by
  have retired : readReg (aluResult rd v s) j = readReg (writeReg s rd v) j := by
    simp only [aluResult_of_ne_XZR hxzr, readReg, storedReg_retireNext, hj, false_and, if_false]
  rw [retired, readReg_writeReg]; simp only [hxzr, ne_eq, not_false_eq_true, and_true]

/-- A result of XLEN bits is exact, and the other registers keep theirs (41_alu R90, R92). -/
theorem aluResult_exact {s : State} {rd : RegIdx} {v : Int} (hpc : rd ≠ .PC) (hxzr : rd ≠ .XZR) (hv : Fits s.params.xlen v) :
    readReg (aluResult rd v s) rd = v ∧ ∀ j, j ≠ rd → j ≠ .PC → readReg (aluResult rd v s) j = readReg s j := by
  refine ⟨?_, fun j hj hjpc => ?_⟩
  · rw [readReg_aluResult hxzr hpc, if_pos rfl, wrap_of_fits hv]
  · rw [readReg_aluResult hxzr hjpc, if_neg hj]

/-! ## The statements -/

/-- Settles O18: the row of ADDI has no zero field, and the rest is the common shape with the sum. -/
theorem addiAddsTheConstant : Obligations.AddiAddsTheConstant :=
  ⟨fun _ hop => decodeWord_of_fieldOp .addi hop, fun _ rd _ _ hs => aluResult_writesRegister hs rd _,
    fun _ _ _ _ _ hpc hxzr hfit => ⟨_, rfl, aluResult_exact hpc hxzr hfit⟩⟩

/-- Settles O19: the zero field of the row of ADD decides the decoding, and the rest is the common shape with the sum of both registers. -/
theorem addAddsBothRegisters : Obligations.AddAddsBothRegisters :=
  ⟨fun _ hop => (decodeWord_of_fieldOp .add hop).trans (if_congr decide_eq_true_iff rfl rfl),
    fun _ rd _ _ hs => aluResult_writesRegister hs rd _⟩

/-- Settles O20: the row of SUBI has no zero field, and the rest is the common shape with the difference. -/
theorem subiSubtractsTheConstant : Obligations.SubiSubtractsTheConstant :=
  ⟨fun _ hop => decodeWord_of_fieldOp .subi hop, fun _ rd _ _ hs => aluResult_writesRegister hs rd _,
    fun _ _ _ _ _ hpc hxzr hfit => ⟨_, rfl, aluResult_exact hpc hxzr hfit⟩⟩

end Machine

end Sys2Proof
end

section
/-!
PROOFS of the family 42_branch: B, BL, BR and CBZ (42_branch R100 to R104). First the end of a branch-class cycle, with and without a write of SP, then
what a jump to the pc's own value comes to, and the hang of an instruction that leaves its latched state as it is.
-/

namespace Sys2Proof.Machine

/-! ## Stages 4 and 5 of a branch-class cycle -/

/-- Nothing is added to a pc that is not 0, and stage 5 follows (40_fetch_decode R77). -/
theorem retireBranch_of_pc_ne_zero {s : State} (h : pc s ≠ 0) (pc0 : Int) : retireBranch s pc0 = checkSp s pc0 := by
  rw [retireBranch, updatePcBranch, if_neg h]

/-- A pc of 0 halts, and stage 5 follows (40_fetch_decode R78). -/
theorem retireBranch_of_pc_eq_zero {s : State} (hrun : s.status = .running) (h : pc s = 0) (pc0 : Int) :
    retireBranch s pc0 = checkSp (haltedState s .haltedPcZero pc0) pc0 := by
  rw [retireBranch, updatePcBranch, if_pos h, halt_of_running hrun]

/-- A handler that changes nothing ends its cycle in the same state. -/
theorem retireBranch_of_inHandler {s : State} (hs : InHandler s) (pc0 : Int) : retireBranch s pc0 = s := by
  obtain ⟨-, hm, hpc⟩ := hs
  rw [retireBranch_of_pc_ne_zero hpc, checkSp_of_not_spMod hm]

/-- A handler that only writes the pc is a jump to the wrapped value. -/
theorem retireBranch_writeReg_PC_jumpsTo {s : State} (hs : InHandler s) (v : Int) :
    JumpsTo s (wrap s.params.xlen v) (.next (retireBranch (writeReg s .PC v) (pc s))) := by
  obtain ⟨hrun, hm, -⟩ := hs
  rw [writeReg_eq_setReg (by decide) (by decide)]
  refine ⟨fun hv => ?jump, fun hv => ?halt⟩
  case jump => rw [retireBranch_of_pc_ne_zero (by rwa [pc_setReg_PC]), checkSp_of_not_spMod (by exact hm)]
  case halt =>
    rw [hv, retireBranch_of_pc_eq_zero (by exact hrun) (pc_setReg_PC s 0), checkSp_of_not_spMod (by exact hm)]

/-- B is a jump relative to its own address (42_branch R100). -/
theorem exec_b_jumpsTo {s : State} (hs : InHandler s) (imm : Int) :
    JumpsTo s (wrap s.params.xlen (pc s + imm)) (exec (.b imm) s) := retireBranch_writeReg_PC_jumpsTo hs (pc s + imm)

/-- BR is a jump to the register's value, which has XLEN bits already (42_branch R103). -/
theorem exec_br_jumpsTo {s : State} (hs : InHandler s) {rd : RegIdx} (hfit : Fits s.params.xlen (readReg s rd)) :
    JumpsTo s (readReg s rd) (exec (.br rd) s) := by
  have jump := retireBranch_writeReg_PC_jumpsTo hs (readReg s rd)
  rwa [wrap_of_fits hfit] at jump

/-! ## A branch to itself -/

/-- Storing what an entry holds changes nothing. -/
theorem setReg_storedReg_self (s : State) (i : RegIdx) : setReg s i (storedReg s i) = s := by
  simp [setReg, storedReg, Vector.get_eq_getElem]

/-- A jump to the pc's own value leaves the state as it is. -/
theorem eq_next_of_jumpsTo_pc {s : State} {o : Result} (hs : InHandler s) (h : JumpsTo s (pc s) o) : o = .next s := by
  obtain ⟨-, -, hpc⟩ := hs
  exact (h.1 hpc).trans (congrArg _ (setReg_storedReg_self s .PC))

/-- `B #0` leaves the state as it is (42_branch R100). -/
theorem exec_b_zero {s : State} (hs : InHandler s) (hfit : Fits s.params.xlen (pc s)) : exec (.b 0) s = .next s := by
  have jump := exec_b_jumpsTo hs 0
  rw [add_zero, wrap_of_fits hfit] at jump
  exact eq_next_of_jumpsTo_pc hs jump

/-- `BR X29` leaves the state as it is (42_branch R103). -/
theorem exec_br_PC {s : State} (hs : InHandler s) (hfit : Fits s.params.xlen (pc s)) : exec (.br .PC) s = .next s :=
  eq_next_of_jumpsTo_pc hs (exec_br_jumpsTo hs hfit)

/-- The state in which a cycle runs its handler. -/
theorem inHandler_latch {s : State} (hen : Enabled s) (hpc : pc s ≠ 0) (c : InstrCell) : InHandler (latch (beginCycle s) c) :=
  ⟨hen.2, rfl, hpc⟩

/-- After a step that answers a next state, the rest of a run starts there. -/
theorem run_succ_of_step {M : Host.Core} {s t : M.State} (h : M.step s = .next t) (n : Nat) : M.run (n + 1) s = M.run n t := by
  rw [Host.Core.run, h]

/-- A state that one step leaves as it is stays under every number of steps. -/
theorem run_of_step_eq_self {s : State} (h : step s = .next s) (n : Nat) : Host.Core.run core n s = .next s := by
  induction n with
  | zero => rfl
  | succ n ih => exact (run_succ_of_step (M := core) h n).trans ih

/-- A state that fetches an instruction which leaves the latched state as it is stays on it for ever: only the first step clears `sp_mod` and latches the
cell. -/
theorem run_of_exec_eq_self {s : State} {c : InstrCell} {i : Instr} (hen : Enabled s) (hpc : pc s ≠ 0) (hf : Fetches s c i)
    (h : exec i (latch (beginCycle s) c) = .next (latch (beginCycle s) c)) (n : Nat) :
    Host.Core.run core (n + 1) s = .next { s with spMod := false, last := some c } := by
  have first : step s = .next (latch (beginCycle s) c) := (step_of_fetches hen hpc hf).trans h
  have again : step (latch (beginCycle s) c) = .next (latch (beginCycle s) c) :=
    (step_of_fetches (s := latch (beginCycle s) c) hen hpc hf).trans h
  exact (run_succ_of_step (M := core) first n).trans (run_of_step_eq_self again n)

/-! ## A misaligned target -/

/-- A jump off the alignment leaves the engine enabled on a pc that the next fetch refuses (40_fetch_decode R72). -/
theorem step_of_jumpsTo_misaligned {s t : State} {target : Int} (hs : InHandler s) (hphase : s.phase = .exec) (hal : target % 4 ≠ 0)
    (h : JumpsTo s target (.next t)) : step t = .next (abortedState t .pcMisaligned (pc t)) := by
  obtain ⟨hrun, hm, -⟩ := hs
  have hne : target ≠ 0 := by rintro rfl; exact hal rfl
  cases h.1 hne
  have hpc : pc (setReg s .PC target) = target := pc_setReg_PC s target
  rw [step_of_fetch_error (s := setReg s .PC target) ⟨hphase, hrun⟩ (by rwa [hpc]) (fetchCell_of_misaligned (by rwa [hpc]) _), ← hm]; rfl

/-! ## BL -/

/-- A write to index 28 stores the wrapped value and sets `sp_mod` (10_state R21). -/
theorem writeReg_SP (s : State) (v : Int) : writeReg s .SP v = { setReg s .SP (wrap s.params.xlen v) with spMod := true } := by
  rw [writeReg, if_neg (by decide), if_pos rfl]

/-- The cells after BL (42_branch R102). -/
def unwoundMem (s : State) : Memory := Memory.clear s.mem (clearLo s) clearHi

/-- `s` after the handler of BL, jumping to `target`: the cells unwound, and SP at the stack top (42_branch R102). -/
def unwound (s : State) (target : Int) : State := { setReg (setReg s .PC target) .SP 4000 with mem := unwoundMem s, spMod := true }

theorem read_unwoundMem (s : State) (k : Nat) :
    Memory.read (unwoundMem s) k = if Int.tdiv (sp s) 8 ≤ (k : Int) ∧ (k : Int) ≤ 500 then .empty else readCell s k := by
  have hlo : clearLo s = Int.tdiv (sp s) 8 := tdiv_eq_tdiv (sp s) (by decide)
  rw [unwoundMem, hlo]
  exact Memory.read_clear s.mem _ _ k

@[simp] theorem pc_unwound (s : State) (target : Int) : pc (unwound s target) = target := by
  have keep : pc (setReg (setReg s .PC target) .SP 4000) = pc (setReg s .PC target) := readReg_setReg_of_ne _ (by decide) _
  exact keep.trans (pc_setReg_PC s target)

@[simp] theorem sp_unwound (s : State) (target : Int) : sp (unwound s target) = 4000 := by
  have top : sp (setReg (setReg s .PC target) .SP 4000) = 4000 := by simp [sp, readReg]
  exact top

/-- The stack top lies in every window. -/
theorem spOk_stackTop (p : Config.Params) : SpOk p 4000 := by
  simp only [SpOk, stackBase, Config.stackTop, Config.stackSlotBytes]
  omega

/-- BL ends its cycle after the unwinding. -/
theorem exec_bl_eq (s : State) (imm : Int) :
    exec (.bl imm) s = .next (retireBranch (unwound s (wrap s.params.xlen (lr s + imm))) (pc s)) := by
  rw [exec, execBl, writeReg_SP, writeReg_eq_setReg (i := .PC) (by decide) (by decide), wrap_stackTop]; rfl

theorem retireBranch_unwound_of_ne_zero (s : State) {target : Int} (h : target ≠ 0) (pc0 : Int) :
    retireBranch (unwound s target) pc0 = unwound s target := by
  rw [retireBranch_of_pc_ne_zero (by rwa [pc_unwound]), checkSp_of_ok (by rw [sp_unwound]; exact spOk_stackTop _)]

theorem retireBranch_unwound_zero {s : State} (hrun : s.status = .running) (pc0 : Int) :
    retireBranch (unwound s 0) pc0 = haltedState (unwound s 0) .haltedPcZero pc0 := by
  have hsp : sp (haltedState (unwound s 0) .haltedPcZero pc0) = 4000 := sp_unwound s 0
  rw [retireBranch_of_pc_eq_zero (by exact hrun) (pc_unwound s 0), checkSp_of_ok (by rw [hsp]; exact spOk_stackTop _)]

/-- The cell of an SP in its window is a stack cell, and the array has them all (00_scope R6, R7). -/
theorem unwind_range_of_legal {p : Config.Params} {v : Int} (hp : p.Legal) (hv : SpOk p v) :
    Int.tdiv (4000 - (p.stackSize : Int)) 8 ≤ Int.tdiv v 8 ∧ Int.tdiv v 8 ≤ 500 ∧ 500 < p.memCells := by
  obtain ⟨hsize, hcells⟩ := hp
  obtain ⟨hlo, hhi, -⟩ := hv
  simp only [stackBase, Config.stackTop] at hsize hlo hhi
  rw [Int.tdiv_eq_ediv_of_nonneg (by omega), Int.tdiv_eq_ediv_of_nonneg (by omega)]
  omega

/-! ## The statements -/

/-- Settles O21: the zero field of the row of B, the jump, the jump to its own pc, and the alignment that `wrap` keeps. -/
theorem bJumpsRelativeToItself : Obligations.BJumpsRelativeToItself := by
  refine ⟨fun w hop => ?decoding, fun s imm hs => exec_b_jumpsTo hs imm, fun s hs hfit => exec_b_zero hs hfit,
    fun s c hen hpc hfit hf => ?hang, fun s t imm hs hphase he himm hal => ?misaligned⟩
  case decoding => exact (decodeWord_of_fieldOp .b hop).trans (if_congr decide_eq_true_iff rfl rfl)
  case hang => exact run_of_exec_eq_self hen hpc hf (exec_b_zero (inHandler_latch hen hpc c) hfit)
  case misaligned =>
    have jump := exec_b_jumpsTo hs imm
    rw [he] at jump
    exact step_of_jumpsTo_misaligned hs hphase (by rw [wrap_mod_four]; omega) jump

/-- Settles O22: the zero field of the row of BL, the unwound state with its two ends of the cycle, and the range under the invariant. -/
theorem blUnwindsTheStack : Obligations.BlUnwindsTheStack := by
  refine ⟨fun w hop => ?decoding, fun s imm hs => ?unwinding, fun s hinv hrun => ?range⟩
  case decoding => exact (decodeWord_of_fieldOp .bl hop).trans (if_congr decide_eq_true_iff rfl rfl)
  case unwinding =>
    obtain ⟨hrun, -, -⟩ := hs
    refine ⟨unwoundMem s, fun hm => Memory.wf_clear hm _ _, read_unwoundMem s, fun hne => ?_, fun hz => ?_⟩
    · rw [exec_bl_eq, retireBranch_unwound_of_ne_zero s hne]; rfl
    · rw [exec_bl_eq, hz, retireBranch_unwound_zero hrun]; rfl
  case range => exact unwind_range_of_legal hinv.params_legal (hinv.sp_in_window hrun)

/-- Settles O23: the zero field of the row of BR, the jump to the register, and its two special targets, 0 and the pc itself. -/
theorem brJumpsToTheRegister : Obligations.BrJumpsToTheRegister := by
  refine ⟨fun w hop => ?decoding, fun s rd hs hfit => exec_br_jumpsTo hs hfit, fun s hs => ?xzr, fun s hs hfit => exec_br_PC hs hfit,
    fun s c hen hpc hfit hf => ?hang⟩
  case decoding => exact (decodeWord_of_fieldOp .br hop).trans (if_congr decide_eq_true_iff rfl rfl)
  case xzr => exact (retireBranch_writeReg_PC_jumpsTo hs 0).2 (wrap_zero _)
  case hang => exact run_of_exec_eq_self hen hpc hf (exec_br_PC (inHandler_latch hen hpc c) hfit)

/-- Settles O24: the zero field of the row of CBZ, and the two branches of its handler. -/
theorem cbzBranchesOnZeroOnly : Obligations.CbzBranchesOnZeroOnly := by
  refine ⟨fun w hop => ?decoding, fun s rd imm hs hz => ?taken, fun s rd imm hs hnz => ?notTaken⟩
  case decoding => exact (decodeWord_of_fieldOp .cbz hop).trans (if_congr decide_eq_true_iff rfl rfl)
  case taken =>
    rw [exec, execCbz, if_pos hz]
    exact retireBranch_writeReg_PC_jumpsTo hs (pc s + imm)
  case notTaken => rw [exec, execCbz, if_neg hnz, retireBranch_of_inHandler hs]

end Sys2Proof.Machine
end

section
/-!
PROOFS of the family 43_load_store: LDUR and STUR (43_load_store R110, R111). First the stride and the effective index as the statements write them, then
what the handler makes of each answer of the access primitives: a refusal is a DecodeError, a good read ends as an ALU result does, and a good write ends
with the pc's increment.
-/

namespace Sys2Proof.Machine

/-! ## The effective index -/

/-- The effective index by the library's truncating division: base and offset divided separately (43_load_store R113, 20_memory R34). -/
theorem operandIndex_eq_tdiv (s : State) (rn : RegIdx) (imm : Int) :
    operandIndex s rn imm = Int.tdiv (readReg s rn) (stride rn) + Int.tdiv imm (stride rn) := by
  rw [operandIndex, effIndex, tdiv_eq_tdiv _ (stride_pos rn), tdiv_eq_tdiv _ (stride_pos rn)]

/-- The stride `n` and the index `k` as the rules give them are the model's own (20_memory R33, 43_load_store R113). -/
theorem eq_stride_and_eq_operandIndex {s : State} {rn : RegIdx} {imm n k : Int} (hn : n = if rn = .SP then 8 else 4)
    (hk : k = Int.tdiv (readReg s rn) n + Int.tdiv imm n) : n = stride rn ∧ k = operandIndex s rn imm := by
  have hstride : n = stride rn := hn
  rw [hstride] at hk
  exact ⟨hstride, hk.trans (operandIndex_eq_tdiv s rn imm).symm⟩

/-! ## LDUR, by the answer of MemRead -/

/-- An LDUR whose read is refused while running aborts with the refusal's cause and `info`. -/
theorem exec_ldur_aborted {s : State} {rd rn : RegIdx} {imm info : Int} {c : Cause} (hrun : s.status = .running) (hxzr : rd ≠ .XZR)
    (h : memRead s (operandIndex s rn imm) = .error (c, info)) : exec (.ldur rd rn imm) s = .next (abortedState s c info) := by
  simp only [exec, execLdur, if_neg hxzr, h, decodeError_of_running hrun]

/-- An LDUR whose read is good ends as an ALU instruction with the cell's value as its result. -/
theorem exec_ldur_of_ok {s : State} {rd rn : RegIdx} {imm v : Int} (hxzr : rd ≠ .XZR) (h : memRead s (operandIndex s rn imm) = .ok v) :
    exec (.ldur rd rn imm) s = .next (aluResult rd v s) := by
  simp only [exec, execLdur, if_neg hxzr, h, aluResult_of_ne_XZR hxzr]

/-! ## STUR, by the answer of MemWrite -/

/-- A STUR whose write is refused while running aborts with the refusal's cause and `info`. -/
theorem exec_stur_aborted {s : State} {rd rn : RegIdx} {imm info : Int} {c : Cause} (hrun : s.status = .running)
    (h : memWrite s (operandIndex s rn imm) (stride rn) (readReg s rd) = .error (c, info)) :
    exec (.stur rd rn imm) s = .next (abortedState s c info) := by
  rw [exec_stur_of_error h, decodeError_of_running hrun]

/-- A STUR whose write is good ends its cycle with the cell written. -/
theorem exec_stur_of_ok {s s' : State} {rd rn : RegIdx} {imm : Int}
    (h : memWrite s (operandIndex s rn imm) (stride rn) (readReg s rd) = .ok s') :
    exec (.stur rd rn imm) s = .next (retireNext s' (pc s)) := by
  simp only [exec, execStur, h]

/-- A handler that only writes a cell ends its cycle with the increment. -/
theorem retireNext_writeCell {s : State} (hs : InHandler s) (k : Nat) (c : MemCell) (pc0 : Int) :
    retireNext (writeCell s k c) pc0 = { setReg s .PC (wrap s.params.xlen (pc s + 4)) with mem := Memory.write s.mem k c } := by
  obtain ⟨-, hm, hpc⟩ := hs
  exact retireNext_of_not_spMod (s := writeCell s k c) hm hpc pc0

/-- A STUR to a cell of the array that holds no instruction writes the data cell, adds 4 to the pc and does nothing else (43_load_store R111). -/
theorem exec_stur_stores {s : State} (hs : InHandler s) {rn : RegIdx} {imm : Int} (hex : CellExists s (operandIndex s rn imm))
    (hc : ∀ c, readCell s (operandIndex s rn imm).toNat ≠ .instr c) (rd : RegIdx) :
    exec (.stur rd rn imm) s =
      .next { setReg s .PC (wrap s.params.xlen (pc s + 4)) with
        mem := Memory.write s.mem (operandIndex s rn imm).toNat (.data (operandIndex s rn imm * stride rn).toNat (readReg s rd)) } := by
  rw [exec_stur_of_ok ((memWrite_ok_iff ..).2 ⟨hex, hc, rfl⟩), retireNext_writeCell hs]

/-! ## The statements -/

/-- Settles O25: the row of LDUR has no zero field, index 31 is rejected before the access, MemRead's refusals come in order, and a good read is the
common shape with the cell's value. -/
theorem ldurLoadsTheCell : Obligations.LdurLoadsTheCell := by
  refine ⟨fun _ hop => decodeWord_of_fieldOp .ldur hop, fun s rd rn imm n k hs hn hk => ?_⟩
  obtain ⟨rfl, rfl⟩ := eq_stride_and_eq_operandIndex hn hk
  have ⟨hrun, _, _⟩ := hs
  refine ⟨?xzr, fun hxzr hout => ?outside, fun hxzr hlo hhi hc => ?nonData, fun a v hxzr hlo hhi hc hfit => ?good⟩
  case xzr =>
    rintro rfl
    rw [exec_of_destReg_XZR rfl, decodeError_of_running hrun]
  case outside => exact exec_ldur_aborted hrun hxzr ((memRead_error_iff ..).2 ⟨rfl, .inl ⟨by omega, rfl⟩⟩)
  case nonData => exact exec_ldur_aborted hrun hxzr ((memRead_error_iff ..).2 ⟨rfl, .inr ⟨⟨hlo, hhi⟩, hc, rfl⟩⟩)
  case good =>
    rw [exec_ldur_of_ok hxzr ((memRead_ok_iff ..).2 ⟨⟨hlo, hhi⟩, a, hc⟩)]
    exact ⟨aluResult_writesRegister hs rd v, wrap_of_fits hfit⟩

/-- Settles O26: the row of STUR has no zero field, MemWrite's refusals come in order, and a good write is one cell write and the increment. -/
theorem sturStoresTheRegister : Obligations.SturStoresTheRegister := by
  refine ⟨fun _ hop => decodeWord_of_fieldOp .stur hop, fun s rd rn imm n k hs hn hk => ?_⟩
  obtain ⟨rfl, rfl⟩ := eq_stride_and_eq_operandIndex hn hk
  have ⟨hrun, _, _⟩ := hs
  refine ⟨fun hout => ?outside, fun c hlo hhi hc => ?instr, fun hlo hhi hc hm => ?good⟩
  case outside => exact exec_stur_aborted hrun ((memWrite_error_iff ..).2 ⟨rfl, .inl ⟨by omega, rfl⟩⟩)
  case instr => exact exec_stur_aborted hrun ((memWrite_error_iff ..).2 ⟨rfl, .inr ⟨⟨hlo, hhi⟩, ⟨c, hc⟩, rfl⟩⟩)
  case good =>
    refine ⟨_, Memory.wf_write hm _ _, fun j => ?_, exec_stur_stores hs ⟨hlo, hhi⟩ hc rd⟩
    rw [Memory.read_write hm]
    exact if_congr (by omega) rfl rfl

end Sys2Proof.Machine
end

section
/-!
PROOFS of the family 44_sp_checker: the stack-pointer bounds checker (44_sp_checker R120 to R123). A cycle has two ends with respect to it: the StackFault
on a bad SP that the cycle wrote, which is one whole next state, or an end that the checker accepts. First the two ends, then that every instruction and
every step comes to one of them; the four statements are read off there.
-/

namespace Sys2Proof.Machine

/-! ## The two ends of a cycle -/

/-- The cycle of `s` ends in a StackFault: it wrote the bad value `v` to SP, advanced the pc, and changed nothing else (44_sp_checker R122). -/
def FaultsOnSp (s t : State) : Prop :=
  ∃ v c, spViolation s.params v = some c ∧ t = stackFaultedState (spWritten s v) c (pc s) v

/-- The cycle of `s` ends in `t` without a StackFault: an SP it wrote is a good one, and an SP it did not write is as before (44_sp_checker R120). -/
structure PassesSpCheck (s t : State) : Prop where
  params_eq : t.params = s.params
  not_faulted : t.status ≠ .faultedStackOverflow
  written_ok : t.spMod = true → SpOk s.params (sp t)
  unwritten_eq : t.spMod = false → sp t = sp s
  cause_ne : s.fault.cause ≠ .outOfWindow → t.fault.cause ≠ .outOfWindow

/-! ## The StackFault -/

/-- The window and the alignment in numbers (10_state R13). -/
theorem spOk_iff (p : Config.Params) (v : Int) : SpOk p v ↔ 4000 - (p.stackSize : Int) ≤ v ∧ v ≤ 4000 ∧ v % 8 = 0 := Iff.rfl

/-- A value with a violation is a bad one. -/
theorem not_spOk_of_spViolation {p : Config.Params} {v : Int} {c : Cause} (h : spViolation p v = some c) : ¬ SpOk p v := by
  rw [← spViolation_none_iff, h]; exact Option.some_ne_none c

section
variable {s t : State}

theorem FaultsOnSp.status_eq (h : FaultsOnSp s t) : t.status = .faultedStackOverflow := by
  obtain ⟨v, c, -, rfl⟩ := h; rfl

theorem FaultsOnSp.params_eq (h : FaultsOnSp s t) : t.params = s.params := by
  obtain ⟨v, c, -, rfl⟩ := h; rfl

theorem FaultsOnSp.mem_eq (h : FaultsOnSp s t) : t.mem = s.mem := by
  obtain ⟨v, c, -, rfl⟩ := h; rfl

theorem FaultsOnSp.spMod_eq (h : FaultsOnSp s t) : t.spMod = true := by
  obtain ⟨v, c, -, rfl⟩ := h; rfl

theorem FaultsOnSp.not_spOk (h : FaultsOnSp s t) : ¬ SpOk s.params (sp t) := by
  obtain ⟨v, c, hv, rfl⟩ := h
  have hsp : sp (stackFaultedState (spWritten s v) c (pc s) v) = v := sp_spWritten s v
  rw [hsp]; exact not_spOk_of_spViolation hv

/-- The record names the instruction and the bad SP, and the window check decides the cause (44_sp_checker R121 to R123). -/
theorem FaultsOnSp.fault_eq (h : FaultsOnSp s t) :
    t.fault = { cause := if sp t < 4000 - (s.params.stackSize : Int) ∨ 4000 < sp t then .outOfWindow else .spMisaligned,
                addr := pc s, info := sp t } := by
  obtain ⟨v, c, hv, rfl⟩ := h
  have hsp : sp (stackFaultedState (spWritten s v) c (pc s) v) = v := sp_spWritten s v
  rw [hsp, spViolation_some hv]; rfl

/-- The window check has priority (44_sp_checker R121, R123). -/
theorem FaultsOnSp.fault_of_outside (h : FaultsOnSp s t) (hout : sp t < 4000 - (s.params.stackSize : Int) ∨ 4000 < sp t) :
    t.fault = { cause := .outOfWindow, addr := pc s, info := sp t } := by
  rw [h.fault_eq, if_pos hout]

theorem FaultsOnSp.fault_of_inside (h : FaultsOnSp s t) (hlo : 4000 - (s.params.stackSize : Int) ≤ sp t) (hhi : sp t ≤ 4000) :
    t.fault = { cause := .spMisaligned, addr := pc s, info := sp t } := by
  rw [h.fault_eq, if_neg (by omega)]

theorem FaultsOnSp.pc_eq (h : FaultsOnSp s t) : pc t = wrap s.params.xlen (pc s + 4) := by
  obtain ⟨v, c, -, rfl⟩ := h; exact pc_setReg_PC (setReg s .SP v) _

theorem FaultsOnSp.storedReg_eq (h : FaultsOnSp s t) {j : RegIdx} (hpc : j ≠ .PC) (hsp : j ≠ .SP) : storedReg t j = storedReg s j := by
  obtain ⟨v, c, -, rfl⟩ := h
  calc storedReg (setReg (setReg s .SP v) .PC (wrap s.params.xlen (pc s + 4))) j
      = storedReg (setReg s .SP v) j := by rw [storedReg_setReg, if_neg hpc]
    _ = storedReg s j := by rw [storedReg_setReg, if_neg hsp]

end

/-- The checker after a write of SP passes, or it faults. -/
theorem checkSp_spWritten_cases {s : State} (hrun : s.status = .running) (v : Int) :
    FaultsOnSp s (checkSp (spWritten s v) (pc s)) ∨ PassesSpCheck s (checkSp (spWritten s v) (pc s)) := by
  cases hv : spViolation s.params v with
  | some c => exact .inl ⟨v, c, hv, checkSp_spWritten_of_violation hrun hv (pc s)⟩
  | none =>
    have hok : SpOk s.params (sp (spWritten s v)) := by rw [sp_spWritten]; exact (spViolation_none_iff _ _).1 hv
    have hst : (spWritten s v).status = .running := hrun
    rw [checkSp_of_ok (s := spWritten s v) hok]
    exact .inr ⟨rfl, by rw [hst]; decide, fun _ => hok, nofun, id⟩

/-! ## The ends without a StackFault -/

namespace PassesSpCheck

variable {s u : State}

/-- A running state in which SP has not been written passes as it is. -/
theorem refl (hrun : s.status = .running) (hm : s.spMod = false) : PassesSpCheck s s :=
  ⟨rfl, by rw [hrun]; decide, by rw [hm]; nofun, fun _ => rfl, id⟩

/-- A write of another register than SP is none of the checker's business. -/
theorem setReg (h : PassesSpCheck s u) {i : RegIdx} (hi : i ≠ .SP) (v : Int) : PassesSpCheck s (setReg u i v) := by
  have keep : sp (Machine.setReg u i v) = sp u := readReg_setReg_of_ne u hi.symm v
  exact ⟨h.params_eq, h.not_faulted, keep ▸ h.written_ok, keep ▸ h.unwritten_eq, h.cause_ne⟩

/-- Nor is a write of a cell. -/
theorem writeCell (h : PassesSpCheck s u) (k : Nat) (c : MemCell) : PassesSpCheck s (writeCell u k c) :=
  ⟨h.params_eq, h.not_faulted, h.written_ok, h.unwritten_eq, h.cause_ne⟩

theorem haltedState (h : PassesSpCheck s u) {st : Status} (hst : st ≠ .faultedStackOverflow) (pc0 : Int) :
    PassesSpCheck s (haltedState u st pc0) :=
  ⟨h.params_eq, hst, h.written_ok, h.unwritten_eq, fun _ => nofun⟩

theorem abortedState (h : PassesSpCheck s u) {c : Cause} (hc : c ≠ .outOfWindow) (info : Int) : PassesSpCheck s (abortedState u c info) :=
  ⟨h.params_eq, nofun, h.written_ok, h.unwritten_eq, fun _ => hc⟩

/-- A non-branch cycle whose handler did not write SP. -/
theorem retireNext (h : PassesSpCheck s u) (hrun : u.status = .running) (hm : u.spMod = false) (pc0 : Int) :
    PassesSpCheck s (retireNext u pc0) := by
  by_cases hpc : pc u = 0
  · rw [retireNext_of_pc_eq_zero hrun hm hpc]; exact h.haltedState (by decide) pc0
  · rw [retireNext_of_not_spMod hm hpc]; exact h.setReg (by decide) _

/-- A branch-class cycle: an SP its handler wrote is a good one already. -/
theorem retireBranch (h : PassesSpCheck s u) (hrun : u.status = .running) (pc0 : Int) : PassesSpCheck s (retireBranch u pc0) := by
  have checked : ∀ w, PassesSpCheck s w → PassesSpCheck s (checkSp w pc0) := fun w hw => by
    obtain ⟨heq, -⟩ | ⟨hm, c, hc, -⟩ := checkSp_cases w pc0
    · rwa [heq]
    · exact absurd (hw.params_eq ▸ hw.written_ok hm) (not_spOk_of_spViolation hc)
  by_cases hpc : pc u = 0
  · rw [retireBranch_of_pc_eq_zero hrun hpc]; exact checked _ (h.haltedState (by decide) pc0)
  · rw [retireBranch_of_pc_ne_zero hpc]; exact checked _ h

/-- The handler of BL writes the stack top to SP, which every window holds (44_sp_checker R121). -/
theorem unwound (h : PassesSpCheck s s) (target : Int) : PassesSpCheck s (unwound s target) :=
  ⟨rfl, h.not_faulted, fun _ => by rw [sp_unwound]; exact spOk_stackTop _, nofun, id⟩

/-- From a good SP the cycle ends with a good one. -/
theorem spOk (h : PassesSpCheck s u) (hok : SpOk s.params (sp s)) : SpOk s.params (sp u) := by
  cases hm : u.spMod with
  | true => exact h.written_ok hm
  | false => rw [h.unwritten_eq hm]; exact hok

/-- What a cycle does before its handler, clearing `sp_mod` and latching the cell, leaves SP and the fault record alone. -/
theorem of_latch {c : InstrCell} (h : PassesSpCheck (latch (beginCycle s) c) u) : PassesSpCheck s u :=
  ⟨h.params_eq, h.not_faulted, h.written_ok, h.unwritten_eq, h.cause_ne⟩

/-- The start of a cycle clears `sp_mod` and leaves the rest. -/
theorem beginCycle (hrun : s.status = .running) : PassesSpCheck s (beginCycle s) :=
  ⟨rfl, by rw [beginCycle_status, hrun]; decide, nofun, fun _ => rfl, id⟩

end PassesSpCheck

/-! ## The end of an instruction -/

/-- A cycle that ends in a StackFault ran an instruction with destination 28; every other passes. -/
theorem exec_sp_cases {s t : State} {i : Instr} (hs : InHandler s) (he : exec i s = .next t) :
    (destReg? i = some .SP ∧ FaultsOnSp s t) ∨ PassesSpCheck s t := by
  have ⟨hrun, hm, hpc⟩ := hs
  have pass := PassesSpCheck.refl hrun hm
  obtain ⟨t', he', h⟩ := exec_cases i s
  cases he.symm.trans he'
  obtain ⟨c, info, rfl, hc⟩ | ⟨rd, v, hd, hx, rfl⟩ | ⟨rd, rn, imm, -, -, -, rfl⟩ | ⟨v, -, rfl⟩ | ⟨-, rfl⟩ | ⟨imm, rfl, -⟩ := h
  · have hne : c ≠ .outOfWindow := by
      obtain ⟨rfl, -⟩ | ⟨rfl | rfl | rfl, -⟩ := hc <;> decide
    rw [decodeError_of_running hrun]; exact .inr (pass.abortedState hne info)
  · by_cases hsp : rd = .SP
    · subst hsp
      rw [← aluResult_of_ne_XZR hx, aluResult_SP hpc]
      exact (checkSp_spWritten_cases hrun _).imp_left fun h => ⟨hd, h⟩
    · rw [writeReg_eq_setReg hsp hx]
      exact .inr ((pass.setReg hsp _).retireNext (by exact hrun) (by exact hm) _)
  · exact .inr ((pass.writeCell _ _).retireNext (by exact hrun) (by exact hm) _)
  · rw [writeReg_eq_setReg (by decide) (by decide)]
    exact .inr ((pass.setReg (by decide) _).retireBranch (by exact hrun) _)
  · exact .inr (pass.retireBranch hrun _)
  · cases he.symm.trans (exec_bl_eq s imm)
    exact .inr ((pass.unwound _).retireBranch (by exact hrun) _)

/-- A jump names no destination and is no BL. -/
theorem not_writes_SP_of_isJump {i : Instr} (h : isJump i = true) : ¬ (destReg? i = some .SP ∨ ∃ imm, i = .bl imm) := by
  cases i with
  | b | br | cbz => simp [destReg?]
  | addi | add | subi | bl | ldur | stur => cases h

/-- The flag after an instruction: set exactly if it wrote SP, by its destination or as BL, and did not abort before the write (10_state R21). -/
theorem exec_spMod_iff {s t : State} {i : Instr} (hs : InHandler s) (he : exec i s = .next t) :
    t.spMod = true ↔ t.status ≠ .abortedDecodeError ∧ (destReg? i = some .SP ∨ ∃ imm, i = .bl imm) := by
  obtain ⟨hrun, hm, -⟩ := hs
  have hna : s.status ≠ .abortedDecodeError := by rw [hrun]; decide
  obtain ⟨t', he', h⟩ := exec_cases i s
  cases he.symm.trans he'
  obtain ⟨c, info, rfl, -⟩ | ⟨rd, v, hd, -, rfl⟩ | ⟨rd, rn, imm, rfl, -, -, rfl⟩ | ⟨v, hj, rfl⟩ | ⟨hj, rfl⟩ | ⟨imm, rfl, rfl⟩ := h
  · rw [decodeError_of_running hrun]; simp [abortedState, hm]
  · have hbl : ∀ imm, i ≠ .bl imm := by rintro imm rfl; cases hd
    have hret := retireNext_not_aborted (s := writeReg s rd v) (by rwa [writeReg_status]) (pc s)
    simp [writeReg_spMod, hm, hret, hd, hbl]
  · simp [hm, destReg?]
  · simp [writeReg_spMod, hm, not_writes_SP_of_isJump hj]
  · simp [hm, not_writes_SP_of_isJump hj]
  · have hret := retireBranch_not_aborted
      (s := writeReg (writeReg (clearCells s (clearLo s) clearHi) .PC (lr s + imm)) .SP Config.stackTop) (by simpa using hna) (pc s)
    simp [writeReg_spMod, hret]

/-! ## The end of a step -/

/-- A fetch fails with a DecodeError, never with a StackFault. -/
theorem fetchCell_error_ne_outOfWindow {s : State} {pc0 info : Int} {c : Cause} (h : fetchCell s pc0 = .error c info) : c ≠ .outOfWindow := by
  rintro rfl
  unfold fetchCell at h
  split_ifs at h
  · cases h
  · split at h <;> cases h
  · cases h

/-- Decoding fails with a DecodeError, never with a StackFault. -/
theorem decodeCode_error_ne_outOfWindow {x : Xlen} {c : Code} {e : DecodeFailure} (h : decodeCode x c = .error e) : e.cause ≠ .outOfWindow := by
  intro hc
  obtain ⟨a, ha, -⟩ | ⟨e', he', hp⟩ := decodeCode_answers x c
  · cases h.symm.trans ha
  · cases h.symm.trans he'
    have hhigh := hp.cause_high
    rw [hc] at hhigh
    exact absurd hhigh (by decide)

/-- A step that ends in a StackFault fetched an instruction with destination 28; every other passes. -/
theorem step_sp_cases {s t : State} (hen : Enabled s) (h : step s = .next t) :
    (∃ c i, Fetches s c i ∧ destReg? i = some .SP ∧ FaultsOnSp (latch (beginCycle s) c) t) ∨ PassesSpCheck s t := by
  have hrun := hen.2
  have pass := PassesSpCheck.beginCycle hrun
  obtain ⟨hne, -⟩ | ⟨-, -, hs⟩ | ⟨-, hpc, ⟨c, info, hf, hs⟩ | ⟨-, hs⟩ | ⟨c, e, -, hd, hs⟩ | ⟨c, i, hf, hd, hs⟩⟩ := step_cases s
  · exact absurd hen hne
  · cases h.symm.trans hs
    rw [halt_of_running (s := beginCycle s) hrun]; exact .inr (pass.haltedState (by decide) _)
  · cases h.symm.trans hs
    have abort := decodeError_of_running (s := beginCycle s) hrun c info
    exact .inr (abort ▸ pass.abortedState (fetchCell_error_ne_outOfWindow hf) info)
  · cases h.symm.trans hs
    rw [halt_of_running (s := beginCycle s) hrun]; exact .inr (pass.haltedState (by decide) _)
  · cases h.symm.trans hs
    have abort := decodeError_of_running (s := latch (beginCycle s) c) hrun e.cause e.info
    have latched := PassesSpCheck.refl (s := latch (beginCycle s) c) hrun rfl
    exact .inr (abort ▸ (latched.abortedState (decodeCode_error_ne_outOfWindow hd) e.info).of_latch)
  · obtain ⟨hdest, hbad⟩ | hgood := exec_sp_cases (inHandler_latch hen hpc c) (hs.symm.trans h)
    · exact .inl ⟨c, i, ⟨hf, hd⟩, hdest, hbad⟩
    · exact .inr hgood.of_latch

/-- From a good state: a step faults on the SP it wrote, or it leaves a good SP and no OutOfWindow (10_state R29b). -/
theorem step_sp_cases_of_inv {s t : State} (hinv : s.Inv) (hen : Enabled s) (h : step s = .next t) :
    (∃ c i, Fetches s c i ∧ destReg? i = some .SP ∧ FaultsOnSp (latch (beginCycle s) c) t) ∨
      (SpOk s.params (sp t) ∧ t.status ≠ .faultedStackOverflow ∧ t.fault.cause ≠ .outOfWindow) := by
  refine (step_sp_cases hen h).imp_right fun hpass => ⟨hpass.spOk (hinv.sp_in_window hen.2), hpass.not_faulted, hpass.cause_ne ?_⟩
  rw [hinv.fault_zero hen.2]; decide

/-- A state fetches at most one instruction. -/
theorem Fetches.instr_unique {s : State} {c c' : InstrCell} {i i' : Instr} (h : Fetches s c i) (h' : Fetches s c' i') : i = i' := by
  obtain ⟨hc, hi⟩ := h
  obtain ⟨hc', hi'⟩ := h'
  cases hc.symm.trans hc'
  cases hi.symm.trans hi'
  rfl

/-- Once the status is terminal no number of steps changes anything (60_exceptions R138). -/
theorem run_of_not_running {s : State} (h : s.status ≠ .running) (n : Nat) : Host.Core.run core n s = .next s :=
  run_of_step_eq_self (step_of_not_enabled fun hen => h hen.2) n

theorem FaultsOnSp.run_eq {s t : State} (h : FaultsOnSp s t) (n : Nat) : Host.Core.run core n t = .next t :=
  run_of_not_running (by rw [h.status_eq]; decide) n

/-! ## The statements -/

/-- Settles O42: the flag by the kinds of effect an instruction has, and the status by the two ends of a cycle. -/
theorem checkerRunsExactlyWhenSpIsWritten : Obligations.CheckerRunsExactlyWhenSpIsWritten := by
  intro s t i hs he
  refine ⟨exec_spMod_iff hs he, ?_⟩
  obtain ⟨-, hbad⟩ | hgood := exec_sp_cases hs he
  · rw [hbad.params_eq, hbad.spMod_eq]
    exact ⟨fun _ => iff_of_true hbad.status_eq hbad.not_spOk, nofun⟩
  · rw [hgood.params_eq]
    exact ⟨fun hm => iff_of_false hgood.not_faulted (not_not_intro (hgood.written_ok hm)), fun _ => hgood.not_faulted⟩

/-- Settles O43: under the invariant only a StackFault leaves SP outside the window, the window check decides its cause, and BL has no destination. -/
theorem spOutsideTheWindowIsFatal : Obligations.SpOutsideTheWindowIsFatal := by
  intro s t hinv hen h
  obtain ⟨c, i, hf, hd, hbad⟩ | ⟨hok, hne, hcause⟩ := step_sp_cases_of_inv hinv hen h
  · refine ⟨fun hout => ⟨hbad.status_eq, hbad.fault_of_outside hout, hbad.run_eq⟩, fun hlo hhi => ?inside, fun c' imm _ hf' => ?bl⟩
    case inside => rw [hbad.fault_of_inside hlo hhi]; nofun
    case bl =>
      cases hf.instr_unique hf'
      cases hd
  · obtain ⟨hlo, hhi, -⟩ := (spOk_iff _ _).1 hok
    exact ⟨fun hout => by omega, fun _ _ => hcause, fun _ _ _ _ => hne⟩

/-- Settles O44: a misaligned SP inside the window is a StackFault of the second check, and the first clause of O43 gives the window check its priority. -/
theorem spMisalignedIsFatal : Obligations.SpMisalignedIsFatal := by
  intro s t hinv hen h
  refine ⟨fun hlo hhi hal => ?misaligned, fun hout => ?outside⟩
  case misaligned =>
    obtain ⟨c, i, -, -, hbad⟩ | ⟨hok, -, -⟩ := step_sp_cases_of_inv hinv hen h
    · exact ⟨hbad.status_eq, hbad.fault_of_inside hlo hhi⟩
    · obtain ⟨-, -, haligned⟩ := (spOk_iff _ _).1 hok
      exact absurd haligned hal
  case outside =>
    obtain ⟨fatal, -, -⟩ := spOutsideTheWindowIsFatal s t hinv hen h
    obtain ⟨-, hfault, -⟩ := fatal hout
    rw [hfault]

/-- Settles O45: a step that ends in `Faulted-Stack-Overflow` is the one whole next state of a StackFault. -/
theorem stackFaultLeavesTheInstructionCommitted : Obligations.StackFaultLeavesTheInstructionCommitted := by
  intro s t hen h hst
  obtain ⟨c, i, hf, hd, hbad⟩ | hgood := step_sp_cases hen h
  · have hfault := hbad.fault_eq
    have hcode : (observe t).statusCode = 3 := congrArg Status.code hst
    exact ⟨hbad.not_spOk, hfault, hbad.pc_eq, fun j hpc hsp => hbad.storedReg_eq hpc hsp, hbad.mem_eq, ⟨c, i, hf, hd⟩, hcode,
      congrArg FaultRecord.addr hfault, congrArg FaultRecord.info hfault, hbad.run_eq⟩
  · exact absurd hst hgood.not_faulted

end Sys2Proof.Machine
end

section
/-!
PROOFS of the family 60_exceptions: what a DecodeError leaves (60_exceptions R132, R133), the two halts (R131), and that the first event of a run is its
last (R138). First what a fetch answers, then the one shape of an aborted step, then the steps that end in a halt.
-/

namespace Sys2Proof.Machine

/-! ## The answer of the fetch -/

/-- What a fetch answers, and why (40_fetch_decode R72). -/
theorem fetchCell_cases (s : State) (pc0 : Int) :
    (pc0 % 4 ≠ 0 ∧ fetchCell s pc0 = .error .pcMisaligned pc0) ∨
      (¬ CellExists s (Int.tdiv pc0 4) ∧ fetchCell s pc0 = .error .fetchIndexOutOfRange pc0) ∨
      (readCell s (Int.tdiv pc0 4).toNat = .empty ∧ fetchCell s pc0 = .endOfProgram) ∨
      (∃ a v, readCell s (Int.tdiv pc0 4).toNat = .data a v ∧ fetchCell s pc0 = .error .fetchedDataRecord (Int.tdiv pc0 4)) ∨
      (∃ c, fetchCell s pc0 = .instr c) := by
  by_cases hal : pc0 % 4 = 0
  · by_cases hex : CellExists s (Int.tdiv pc0 4)
    · cases hc : readCell s (Int.tdiv pc0 4).toNat with
      | empty => exact .inr (.inr (.inl ⟨rfl, fetchCell_of_empty hal hex hc⟩))
      | data a v => exact .inr (.inr (.inr (.inl ⟨a, v, rfl, fetchCell_of_data hal hex hc⟩)))
      | instr c => exact .inr (.inr (.inr (.inr ⟨c, fetchCell_of_instr hal hex hc⟩)))
    · exact .inr (.inl ⟨hex, fetchCell_of_not_cellExists hal hex⟩)
  · exact .inl ⟨hal, fetchCell_of_misaligned hal s⟩

/-- The program ends at an `Empty` cell (40_fetch_decode R73). -/
theorem readCell_of_fetchCell_endOfProgram {s : State} {pc0 : Int} (hf : fetchCell s pc0 = .endOfProgram) :
    readCell s (Int.tdiv pc0 4).toNat = .empty := by
  obtain ⟨-, h⟩ | ⟨-, h⟩ | ⟨hc, h⟩ | ⟨a, v, -, h⟩ | ⟨c, h⟩ := fetchCell_cases s pc0 <;> cases hf.symm.trans h
  exact hc

/-! ## The cause and the `info` of a DecodeError -/

/-- The fetch fails with what the cause table gives (60_exceptions R132). -/
theorem decodeInfo_of_fetch_error {s : State} {c : Cause} {info : Int} (hf : fetchCell s (pc s) = .error c info) : DecodeInfo s c info := by
  obtain ⟨hmis, h⟩ | ⟨hex, h⟩ | ⟨-, h⟩ | ⟨a, v, hc, h⟩ | ⟨ic, h⟩ := fetchCell_cases s (pc s) <;> cases hf.symm.trans h
  · exact ⟨rfl, hmis⟩
  · exact ⟨rfl, hex⟩
  · exact ⟨rfl, a, v, hc⟩

/-- A word is refused for its `op`, or for its zero field (30_encoding R60, R61). -/
theorem decodeWord_error_cases {w : BitVec 32} {e : DecodeFailure} (h : decodeWord w = .error e) :
    e = { cause := .unrecognisedOpcode, info := (fieldOp w).toNat } ∨ e = { cause := .reservedFieldNonZero, info := w.toNat } := by
  unfold decodeWord at h
  split at h
  · cases h; exact .inl rfl
  · split at h
    · cases h
    · cases h; exact .inr rfl

/-- A record is refused for its opcode, for the number of its operands, or for its first bad token (40_fetch_decode R83). -/
theorem decodeRecord_error_cases {x : Xlen} {r : InstrRecord} {e : DecodeFailure} (h : decodeRecord x r = .error e) :
    e.cause = .unrecognisedOpcode ∨
      ∃ op, r.opcode = mnemonicText op ∧
        ((r.operands.length ≠ (tokenKinds op).length ∧ e = operandCountFailure x r.operands) ∨
          ∃ j kd, FirstBadToken x op r.operands j kd ∧ e = { cause := tokenCause kd, info := Config.tokenPosition j }) := by
  unfold decodeRecord at h
  cases hop : opcodeOfText r.opcode with
  | none => rw [hop] at h; cases h; exact .inl rfl
  | some op =>
    rw [hop] at h
    refine .inr ⟨op, (opcodeOfText_eq_some _ _).1 hop, ?_⟩
    obtain ⟨hl, hd⟩ | ⟨j, kd, hbad, hd⟩ | ⟨i, -, -, -, hd⟩ := decodeOperands_cases x op r.operands <;> cases h.symm.trans hd
    · exact .inl ⟨hl, rfl⟩
    · exact .inr ⟨j, kd, hbad, rfl⟩

/-- Positions count from 0 or from 1 (log entry 10). -/
theorem tokenPosition_cases (j : Nat) : Config.tokenPosition j = j ∨ Config.tokenPosition j = j + 1 := by
  unfold Config.tokenPosition
  split
  · exact .inr rfl
  · exact .inl rfl

/-- Decoding fails with what the cause table gives (60_exceptions R132). -/
theorem decodeInfo_of_decode_error {s : State} {c : InstrCell} {e : DecodeFailure} (hf : fetchCell s (pc s) = .instr c)
    (hd : decodeCode s.params.xlen c.code = .error e) : DecodeInfo s e.cause e.info := by
  cases hc : c.code with
  | word w =>
    rw [hc] at hd
    obtain rfl | rfl := decodeWord_error_cases hd
    · exact ⟨c, hf, fun w' hw => by cases hc.symm.trans hw; rfl⟩
    · exact ⟨c, w, hf, hc, rfl⟩
  | record r =>
    rw [hc] at hd
    obtain hcause | ⟨op, hop, ⟨hl, rfl⟩ | ⟨j, kd, hbad, rfl⟩⟩ := decodeRecord_error_cases hd
    · rw [hcause]; exact ⟨c, hf, fun w hw => by cases hc.symm.trans hw⟩
    · exact ⟨c, r, op, hf, hc, hop, hl, .inl rfl⟩
    · have bad : BadTokenAt s kd (Config.tokenPosition j) := ⟨c, r, op, j, hf, hc, hop, hbad, tokenPosition_cases j⟩
      cases kd <;> exact bad

/-- An instruction that raises a DecodeError raises what the cause table gives (60_exceptions R132). -/
theorem exec_aborted_decodeInfo {s t : State} {c : InstrCell} {i : Instr} (hrun : s.status = .running) (hf : Fetches s c i)
    (he : exec i (latch (beginCycle s) c) = .next t) (ht : t.status = .abortedDecodeError) :
    ∃ cause v, t = abortedState (latch (beginCycle s) c) cause v ∧ DecodeInfo s cause v := by
  obtain ⟨cause, v, rfl, h⟩ := exec_aborted (s := latch (beginCycle s) c) hrun he ht
  refine ⟨cause, v, decodeError_of_running (s := latch (beginCycle s) c) hrun cause v, ?_⟩
  obtain ⟨rfl, rfl, hd⟩ | ⟨rd, rn, imm, rfl, -, hm⟩ | ⟨rd, rn, imm, rfl, hm⟩ := h
  · exact ⟨rfl, c, i, hf, hd⟩
  · obtain ⟨rfl, ⟨hex, rfl⟩ | ⟨-, hc, rfl⟩⟩ := (memRead_error_iff ..).1 hm
    · exact ⟨hex, c, rd, rn, imm, .inl hf, rfl⟩
    · exact ⟨hc, c, rd, rn, imm, hf, rfl⟩
  · obtain ⟨rfl, ⟨hex, rfl⟩ | ⟨-, hc, rfl⟩⟩ := (memWrite_error_iff ..).1 hm
    · exact ⟨hex, c, rd, rn, imm, .inr hf, rfl⟩
    · exact ⟨hc, c, rd, rn, imm, hf, rfl⟩

/-- A step that ends in a DecodeError has one shape: the flag cleared, the cell latched if there was one, and the event's status and record
(60_exceptions R133). -/
theorem step_aborted {s t : State} (hen : Enabled s) (h : step s = .next t) (ht : t.status = .abortedDecodeError) :
    ∃ l cause v, t = abortedState { s with spMod := false, last := l } cause v ∧ DecodeInfo s cause v ∧
      (l = s.last ∨ ∃ c, fetchCell s (pc s) = .instr c ∧ l = some c) := by
  have halted : ∀ st, st ≠ .abortedDecodeError → t ≠ halt (beginCycle s) st (pc s) := by
    rintro st hst rfl
    rw [halt_of_running (s := beginCycle s) hen.2] at ht
    exact hst ht
  obtain ⟨hne, -⟩ | ⟨-, -, hs⟩ | ⟨-, hpc, ⟨c, info, hf, hs⟩ | ⟨-, hs⟩ | ⟨c, e, hf, hd, hs⟩ | ⟨c, i, hf, hd, hs⟩⟩ := step_cases s
  · exact absurd hen hne
  · injection h.symm.trans hs with hs; exact absurd hs (halted _ (by decide))
  · cases h.symm.trans (step_of_fetch_error hen hpc hf)
    exact ⟨s.last, c, info, rfl, decodeInfo_of_fetch_error hf, .inl rfl⟩
  · injection h.symm.trans hs with hs; exact absurd hs (halted _ (by decide))
  · cases h.symm.trans (step_of_decode_error hen hpc hf hd)
    exact ⟨some c, e.cause, e.info, rfl, decodeInfo_of_decode_error hf hd, .inr ⟨c, hf, rfl⟩⟩
  · obtain ⟨cause, v, rfl, hinfo⟩ := exec_aborted_decodeInfo hen.2 ⟨hf, hd⟩ (hs.symm.trans h) ht
    exact ⟨some c, cause, v, rfl, hinfo, .inr ⟨c, hf, rfl⟩⟩

/-! ## The halts -/

/-- The stack check of a halted state does nothing: the first event is the only one (60_exceptions R138). -/
theorem checkSp_haltedState (s : State) (pc0 : Int) : checkSp (haltedState s .haltedPcZero pc0) pc0 = haltedState s .haltedPcZero pc0 := by
  obtain ⟨h, -⟩ | ⟨-, c, -, h⟩ := checkSp_cases (haltedState s .haltedPcZero pc0) pc0 <;> exact h

/-- The stack check halts no run. -/
theorem not_goodEnd_checkSp {s : State} (hrun : s.status = .running) (pc0 : Int) : ¬ GoodEnd (checkSp s pc0) := by
  obtain ⟨h, -⟩ | ⟨-, c, -, h⟩ := checkSp_cases s pc0 <;> rw [h]
  · simp [hrun]
  · simp [stackFault_of_running hrun, stackFaultedState]

/-- A DecodeError is no normal end. -/
theorem not_goodEnd_abortedState (s : State) (c : Cause) (info : Int) : ¬ GoodEnd (abortedState s c info) := by
  rintro (h | h) <;> cases h

/-- A non-branch cycle that ends in a halt is the halt on the pc of 0 that its handler left (40_fetch_decode R78). -/
theorem retireNext_goodEnd {s : State} {pc0 : Int} (hrun : s.status = .running) (h : GoodEnd (retireNext s pc0)) :
    pc s = 0 ∧ retireNext s pc0 = haltedState s .haltedPcZero pc0 := by
  by_cases hpc : pc s = 0
  · refine ⟨hpc, ?_⟩
    rw [retireNext, updatePcNext, if_pos hpc, halt_of_running hrun, checkSp_haltedState]
  · rw [retireNext, updatePcNext, if_neg hpc] at h
    exact absurd h (not_goodEnd_checkSp (by rwa [writeReg_status]) pc0)

/-- A branch-class cycle that ends in a halt is the halt on the pc of 0 that its handler left (40_fetch_decode R78). -/
theorem retireBranch_goodEnd {s : State} {pc0 : Int} (hrun : s.status = .running) (h : GoodEnd (retireBranch s pc0)) :
    pc s = 0 ∧ retireBranch s pc0 = haltedState s .haltedPcZero pc0 := by
  by_cases hpc : pc s = 0
  · exact ⟨hpc, by rw [retireBranch_of_pc_eq_zero hrun hpc, checkSp_haltedState]⟩
  · rw [retireBranch_of_pc_ne_zero hpc] at h
    exact absurd h (not_goodEnd_checkSp hrun pc0)

/-- An instruction that ends in a halt left a pc of 0, and the halt is `Halted-PC-Zero` at the instruction's own address. -/
theorem exec_goodEnd {s t : State} {i : Instr} (hrun : s.status = .running) (he : exec i s = .next t) (h : GoodEnd t) :
    ∃ u, pc u = 0 ∧ t = haltedState u .haltedPcZero (pc s) := by
  obtain ⟨t', he', hcases⟩ := exec_cases i s
  cases he.symm.trans he'
  obtain ⟨c, info, rfl, -⟩ | ⟨rd, v, -, -, rfl⟩ | ⟨rd, rn, imm, -, -, -, rfl⟩ | ⟨v, -, rfl⟩ | ⟨-, rfl⟩ | ⟨imm, -, rfl⟩ := hcases
  · rw [decodeError_of_running hrun] at h
    exact absurd h (not_goodEnd_abortedState _ _ _)
  · exact ⟨_, retireNext_goodEnd (by simpa using hrun) h⟩
  · exact ⟨_, retireNext_goodEnd (by simpa using hrun) h⟩
  · exact ⟨_, retireBranch_goodEnd (by simpa using hrun) h⟩
  · exact ⟨_, retireBranch_goodEnd hrun h⟩
  · exact ⟨_, retireBranch_goodEnd (by simpa using hrun) h⟩

/-- A step that ends in a halt found the pc at 0, found the end of the program, or ran an instruction that left a pc of 0 (60_exceptions R131). -/
theorem step_goodEnd {s t : State} (hen : Enabled s) (h : step s = .next t) (ht : GoodEnd t) :
    (pc s = 0 ∧ t = haltedState (beginCycle s) .haltedPcZero (pc s)) ∨
      (fetchCell s (pc s) = .endOfProgram ∧ t = haltedState (beginCycle s) .haltedEndOfProgram (pc s)) ∨
      (pc s ≠ 0 ∧ (∃ c i, Fetches s c i ∧ exec i (latch (beginCycle s) c) = .next t) ∧
        ∃ u, pc u = 0 ∧ t = haltedState u .haltedPcZero (pc s)) := by
  have halted := halt_of_running (s := beginCycle s) hen.2
  obtain ⟨hne, -⟩ | ⟨-, hpc, hs⟩ | ⟨-, hpc, ⟨c, info, hf, hs⟩ | ⟨hf, hs⟩ | ⟨c, e, hf, hd, hs⟩ | ⟨c, i, hf, hd, hs⟩⟩ := step_cases s
  · exact absurd hen hne
  · cases h.symm.trans hs; exact .inl ⟨hpc, halted _ _⟩
  · cases h.symm.trans (step_of_fetch_error hen hpc hf); exact absurd ht (not_goodEnd_abortedState _ _ _)
  · cases h.symm.trans hs; exact .inr (.inl ⟨hf, halted _ _⟩)
  · cases h.symm.trans (step_of_decode_error hen hpc hf hd); exact absurd ht (not_goodEnd_abortedState _ _ _)
  · have he := hs.symm.trans h
    exact .inr (.inr ⟨hpc, ⟨c, i, ⟨hf, hd⟩, he⟩, exec_goodEnd (s := latch (beginCycle s) c) hen.2 he ht⟩)

/-! ## The statements -/

/-- Settles O41: the one shape of an aborted step, whose record is filled by the cause table. -/
theorem decodeErrorIsPrecise : Obligations.DecodeErrorIsPrecise := by
  intro s t hen h ht
  obtain ⟨l, cause, v, rfl, hinfo, hlast⟩ := step_aborted hen h ht
  exact ⟨rfl, rfl, rfl, rfl, hinfo, rfl, rfl, rfl, hlast⟩

/-- Settles O46: each of the three ways a step comes to a halt, read off its next state. -/
theorem haltsAreNormalEnds : Obligations.HaltsAreNormalEnds := by
  intro s t hen h
  refine ⟨fun ht => ?pcZero, fun ht => ?endOfProgram⟩
  case pcZero =>
    obtain ⟨hpc, rfl⟩ | ⟨-, rfl⟩ | ⟨hpc, ⟨c, i, hf, he⟩, u, hu, rfl⟩ := step_goodEnd hen h (.inl ht)
    · exact ⟨hpc, rfl, .inl ⟨hpc, rfl, rfl⟩⟩
    · cases ht
    · exact ⟨hu, rfl, .inr ⟨hpc, c, i, hf, he⟩⟩
  case endOfProgram =>
    obtain ⟨-, rfl⟩ | ⟨hf, rfl⟩ | ⟨-, -, u, -, rfl⟩ := step_goodEnd hen h (.inr ht)
    · cases ht
    · exact ⟨rfl, rfl, readCell_of_fetchCell_endOfProgram hf, rfl⟩
    · cases ht

/-- Settles O47: the engine does not step in a terminal status, and of the host's moves only reset writes the status or the fault record. -/
theorem terminalStatusIsPermanent : Obligations.TerminalStatusIsPermanent := by
  intro s hterm
  refine ⟨run_of_not_running hterm, fun e t hne h => ?_, ⟨_, rfl, rfl⟩⟩
  cases e with
  | reset => exact absurd rfl hne
  | load k c => rw [hostEvent_load_eq_next h]; exact ⟨rfl, rfl⟩
  | start => rw [hostEvent_start_eq_next h]; exact ⟨rfl, rfl⟩
  | cont =>
    cases h.symm.trans (step_of_not_enabled fun hen => hterm hen.2)
    exact ⟨rfl, rfl⟩

end Sys2Proof.Machine
end

section
/-!
PROOFS of the family 70_reset_and_hazards: a CBZ that is not taken is run again for ever (70_reset_and_hazards R171), and `start` with the cycle that
follows it (R164). First what the state after `start` fetches, by the content of `cell[50]`.
-/

namespace Sys2Proof.Machine

/-! ## A CBZ that is not taken -/

/-- A CBZ whose register is not 0 leaves the state as it is, the pc included (42_branch R104). -/
theorem exec_cbz_of_ne_zero {s : State} {rd : RegIdx} {imm : Int} (hs : InHandler s) (h : readReg s rd ≠ 0) : exec (.cbz rd imm) s = .next s := by
  obtain ⟨-, -, notTaken⟩ := cbzBranchesOnZeroOnly
  exact notTaken s rd imm hs h

/-! ## `start`, and the fetch after it -/

/-- `start` is refused in the `Exec` phase (70_reset_and_hazards R164). -/
theorem hostEvent_start_of_exec {s : State} (h : s.phase = .exec) : hostEvent .start s = .refused .startOutsideLoadPhase := by
  rw [hostEvent, startEvent, h]

/-- `start` leaves an engine that has not ended ready to perform cycles (40_fetch_decode R70). -/
theorem enabled_startExec {s : State} (hrun : s.status = .running) : Enabled (startExec s) := ⟨rfl, hrun⟩

/-- The entry pc is not the pc of a halt. -/
theorem pc_startExec_ne_zero (s : State) : pc (startExec s) ≠ 0 := by rw [pc_startExec]; decide

/-- The entry cell is one of the array's, once that has 51 cells. -/
theorem cellExists_entry {s : State} (h : 51 ≤ s.params.memCells) : CellExists (startExec s) (Int.tdiv 200 4) := by
  refine ⟨by decide, ?_⟩
  rw [startExec_params, show Int.tdiv 200 4 = 50 from rfl]
  omega

theorem fetchCell_startExec_of_instr {s : State} {c : InstrCell} (hcells : 51 ≤ s.params.memCells) (hc : readCell s 50 = .instr c) :
    fetchCell (startExec s) (pc (startExec s)) = .instr c := by
  rw [pc_startExec]
  exact fetchCell_of_instr (by decide) (cellExists_entry hcells) hc

theorem fetchCell_startExec_of_empty {s : State} (hcells : 51 ≤ s.params.memCells) (hc : readCell s 50 = .empty) :
    fetchCell (startExec s) (pc (startExec s)) = .endOfProgram := by
  rw [pc_startExec]
  exact fetchCell_of_empty (by decide) (cellExists_entry hcells) hc

/-! ## The statements -/

/-- Settles O48: the handler leaves the latched state as it is, so the same cycle comes again. -/
theorem cbzNotTakenRunsForEver : Obligations.CbzNotTakenRunsForEver := by
  intro s c rd imm hen hpc hf hnz
  exact run_of_exec_eq_self hen hpc hf (exec_cbz_of_ne_zero (inHandler_latch hen hpc c) hnz)

/-- Settles O53: `start` by the phase, and the first cycle by what it fetches at the entry pc. -/
theorem startSetsThePcTo200 : Obligations.StartSetsThePcTo200 := by
  refine ⟨fun s hload => hostEvent_start_of_load hload, fun s t hexec => ?refused, fun s t c _ hrun hcells hc h => ?instr,
    fun s t _ hrun hcells hc h => ?empty⟩
  case refused => rw [hostEvent_start_of_exec hexec]; exact nofun
  case instr =>
    rw [hostEvent_start_eq_next h]
    exact step_of_fetch_instr (enabled_startExec hrun) (pc_startExec_ne_zero s) (fetchCell_startExec_of_instr hcells hc)
  case empty =>
    rw [hostEvent_start_eq_next h, ← pc_startExec s]
    exact step_of_fetch_endOfProgram (enabled_startExec hrun) (pc_startExec_ne_zero s) (fetchCell_startExec_of_empty hcells hc)

end Sys2Proof.Machine
end

section
/-!
PROOFS of the family 'other', the encoding (30_encoding R68): a word as the assembly of its four fields, then the round trip of the encoder and the word
decoder in both directions.
-/

namespace Sys2Proof

/-! ## The four fields of a word -/

/-- The word with these fields: `op`, `rd`, `rn`, and the 18 bits below them (30_encoding R52). -/
def assemble (op : BitVec 4) (rd rn : BitVec 5) (low : BitVec 18) : BitVec 32 := op ++ rd ++ rn ++ low

section
variable (op : BitVec 4) (rd rn rm : BitVec 5) (low : BitVec 18) (z : BitVec 13)

@[simp] theorem extractLsb_assemble_op : (assemble op rd rn low).extractLsb 31 28 = op := by
  ext i hi; grind [assemble]
@[simp] theorem extractLsb_assemble_rd : (assemble op rd rn low).extractLsb 27 23 = rd := by
  ext i hi; grind [assemble]
@[simp] theorem extractLsb_assemble_rn : (assemble op rd rn low).extractLsb 22 18 = rn := by
  ext i hi; grind [assemble]
@[simp] theorem extractLsb_assemble_low : (assemble op rd rn low).extractLsb 17 0 = low := by
  ext i hi; grind [assemble]
@[simp] theorem extractLsb_assemble_rd_rn : (assemble op rd rn low).extractLsb 27 18 = rd ++ rn := by
  ext i hi; grind [assemble]
@[simp] theorem extractLsb_assemble_rn_low : (assemble op rd rn low).extractLsb 22 0 = rn ++ low := by
  ext i hi; grind [assemble]
@[simp] theorem extractLsb_assemble_rm : (assemble op rd rn (rm ++ z)).extractLsb 17 13 = rm := by
  ext i hi; grind [assemble]
@[simp] theorem extractLsb_assemble_low_zeros : (assemble op rd rn (rm ++ z)).extractLsb 12 0 = z := by
  ext i hi; grind [assemble]

end

/-- A word is made of its four fields. -/
theorem assemble_fields (w : BitVec 32) : assemble (w.extractLsb 31 28) (w.extractLsb 27 23) (w.extractLsb 22 18) (w.extractLsb 17 0) = w := by
  ext i hi; grind [assemble]

/-- A part of a field that is zero is zero. -/
theorem extractLsb'_eq_zero_of_le {w : BitVec 32} {start len start' len' : Nat} (h : w.extractLsb' start len = 0) (hlo : start ≤ start')
    (hhi : start' + len' ≤ start + len) : w.extractLsb' start' len' = 0 := by
  ext i hi
  have bit : (w.extractLsb' start len).getLsbD (start' - start + i) = false := by rw [h]; simp
  rw [BitVec.getLsbD_extractLsb', show start + (start' - start + i) = start' + i by omega] at bit
  simpa [show start' - start + i < len by omega] using bit

/-! ## The formats as assembled words (30_encoding R53, R54, R57 to R59) -/

theorem encI_eq_assemble (op : Opcode) (rd rn : RegIdx) (c : Int) :
    encI op rd rn c = assemble (opcodeNumber op) (encReg rd) (encReg rn) (encImm c) := rfl
theorem encR_eq_assemble (op : Opcode) (rd rn rm : RegIdx) :
    encR op rd rn rm = assemble (opcodeNumber op) (encReg rd) (encReg rn) (encReg rm ++ 0#13) := by
  rw [encR, BitVec.append_assoc (x₁ := opcodeNumber op ++ encReg rd ++ encReg rn)]; rfl
theorem encJ_eq_assemble (op : Opcode) (c : Int) : encJ op c = assemble (opcodeNumber op) 0#5 0#5 (encImm c) := rfl
theorem encX_eq_assemble (op : Opcode) (rd : RegIdx) : encX op rd = assemble (opcodeNumber op) (encReg rd) 0#5 0#18 := rfl
theorem encC_eq_assemble (op : Opcode) (rd : RegIdx) (c : Int) :
    encC op rd c = assemble (opcodeNumber op) (encReg rd) 0#5 (encImm c) := rfl

/-! ## From the instruction to its word and back -/

@[simp] theorem toFin_encReg (r : RegIdx) : (encReg r).toFin = r := rfl

theorem toInt_encImm {c : Int} (h : Imm18 c) : (encImm c).toInt = c := by
  obtain ⟨hlo, hhi⟩ := h
  exact BitVec.toInt_ofInt_eq_self (by decide) (by omega) (by omega)

/-- The word of an instruction is assembled with its opcode's number on top. -/
theorem encode_eq_assemble (i : Instr) : ∃ rd rn low, encode i = assemble (opcodeNumber i.opcode) rd rn low := by
  cases i with
  | add rd rn rm => exact ⟨_, _, _, encR_eq_assemble .add rd rn rm⟩
  | addi | subi | b | bl | br | cbz | ldur | stur => exact ⟨_, _, _, rfl⟩

theorem fieldOp_encode (i : Instr) : fieldOp (encode i) = opcodeNumber i.opcode := by
  obtain ⟨rd, rn, low, h⟩ := encode_eq_assemble i
  rw [h]; exact extractLsb_assemble_op ..

/-- The encoder leaves the zero field of its row zero (30_encoding R61). -/
theorem reservedZero_encode (i : Instr) : reservedZero i.opcode (encode i) = true := by
  cases i with
  | addi | subi | ldur | stur => rfl
  | add rd rn rm => simp [encode, Instr.opcode, reservedZero, encR_eq_assemble]
  | b c => simp [encode, Instr.opcode, reservedZero, encJ_eq_assemble]
  | bl c => simp [encode, Instr.opcode, reservedZero, encJ_eq_assemble]
  | br rd => simp [encode, Instr.opcode, reservedZero, encX_eq_assemble]
  | cbz rd c => simp [encode, Instr.opcode, reservedZero, encC_eq_assemble]

/-- The fields of a well-formed instruction's word are the instruction's own. -/
theorem instrOfFields_encode {i : Instr} (h : i.wellFormed = true) : instrOfFields i.opcode (encode i) = i := by
  have imm : ∀ c, i.imm? = some c → (encImm c).toInt = c := fun c hc => by
    rw [Instr.wellFormed, hc] at h
    exact toInt_encImm (of_decide_eq_true h)
  cases i with
  | addi rd rn c | subi rd rn c | ldur rd rn c | stur rd rn c =>
    simp [encode, Instr.opcode, instrOfFields, fieldRd, fieldRn, fieldImm, encI_eq_assemble, imm c rfl]
  | add rd rn rm => simp [encode, Instr.opcode, instrOfFields, fieldRd, fieldRn, fieldRm, encR_eq_assemble]
  | b c | bl c => simp [encode, Instr.opcode, instrOfFields, fieldImm, encJ_eq_assemble, imm c rfl]
  | br rd => simp [encode, Instr.opcode, instrOfFields, fieldRd, encX_eq_assemble]
  | cbz rd c => simp [encode, Instr.opcode, instrOfFields, fieldRd, fieldImm, encC_eq_assemble, imm c rfl]

/-- Settles O1: the word has its opcode's number on top, a zero field of zeros, and the instruction's own fields. -/
theorem encodeThenDecodeGivesTheInstruction : Obligations.EncodeThenDecodeGivesTheInstruction := by
  intro i h
  rw [decodeWord_of_fieldOp i.opcode (fieldOp_encode i), if_pos (reservedZero_encode i), instrOfFields_encode h]

/-! ## From the word to its instruction and back -/

/-- What a word that decodes is: the number of a row on top, the zero field of the row zero, and the fields of the row. -/
theorem decodeWord_eq_ok {w : BitVec 32} {i : Instr} (h : decodeWord w = .ok i) :
    ∃ op, fieldOp w = opcodeNumber op ∧ reservedZero op w = true ∧ i = instrOfFields op w := by
  unfold decodeWord at h
  cases hop : opcodeOfNumber (fieldOp w) with
  | none => rw [hop] at h; cases h
  | some op =>
    rw [hop] at h
    simp only at h
    split_ifs at h with hz
    cases h
    exact ⟨op, opcodeOfNumber_eq_some hop, hz, rfl⟩

theorem imm18_fieldImm (w : BitVec 32) : Imm18 (fieldImm w) := by
  have hlo := BitVec.le_toInt (w.extractLsb 17 0)
  have hhi := BitVec.toInt_lt (x := w.extractLsb 17 0)
  simp only [Imm18, fieldImm]
  omega

theorem wellFormed_instrOfFields (op : Opcode) (w : BitVec 32) : (instrOfFields op w).wellFormed = true := by
  cases op with
  | add | br => rfl
  | addi | subi | b | bl | cbz | ldur | stur => exact decide_eq_true (imm18_fieldImm w)

@[simp] theorem encReg_fieldRd (w : BitVec 32) : encReg (fieldRd w) = w.extractLsb 27 23 := rfl
@[simp] theorem encReg_fieldRn (w : BitVec 32) : encReg (fieldRn w) = w.extractLsb 22 18 := rfl
@[simp] theorem encReg_fieldRm (w : BitVec 32) : encReg (fieldRm w) = w.extractLsb 17 13 := rfl
@[simp] theorem encImm_fieldImm (w : BitVec 32) : encImm (fieldImm w) = w.extractLsb 17 0 := BitVec.ofInt_toInt

/-- The word of a row's fields is the word itself, where the zero field of the row is zero. -/
theorem encode_instrOfFields {op : Opcode} {w : BitVec 32} (hop : fieldOp w = opcodeNumber op) (hz : reservedZero op w = true) :
    encode (instrOfFields op w) = w := by
  have whole : assemble (opcodeNumber op) (w.extractLsb 27 23) (w.extractLsb 22 18) (w.extractLsb 17 0) = w := hop ▸ assemble_fields w
  have jumpZero : w.extractLsb 27 18 = 0 → assemble (opcodeNumber op) 0#5 0#5 (w.extractLsb 17 0) = w := fun h => by
    have hrd : w.extractLsb 27 23 = 0#5 := extractLsb'_eq_zero_of_le h (by decide) (by decide)
    have hrn : w.extractLsb 22 18 = 0#5 := extractLsb'_eq_zero_of_le h (by decide) (by decide)
    rwa [hrd, hrn] at whole
  cases op with
  | addi | subi | ldur | stur => rw [instrOfFields, encode, encI_eq_assemble]; simpa using whole
  | add =>
    have hlow : w.extractLsb 17 13 ++ w.extractLsb 12 0 = w.extractLsb 17 0 := BitVec.extractLsb'_append_extractLsb'_eq_extractLsb' rfl
    rw [show w.extractLsb 12 0 = 0#13 from of_decide_eq_true hz] at hlow
    rw [instrOfFields, encode, encR_eq_assemble, encReg_fieldRm, hlow]; exact whole
  | b | bl => rw [instrOfFields, encode, encJ_eq_assemble, encImm_fieldImm]; exact jumpZero (of_decide_eq_true hz)
  | br =>
    have hrn : w.extractLsb 22 18 = 0#5 := extractLsb'_eq_zero_of_le (of_decide_eq_true hz) (by decide) (by decide)
    have hlow : w.extractLsb 17 0 = 0#18 := extractLsb'_eq_zero_of_le (of_decide_eq_true hz) (by decide) (by decide)
    rw [hrn, hlow] at whole
    rw [instrOfFields, encode, encX_eq_assemble]; exact whole
  | cbz =>
    rw [show w.extractLsb 22 18 = 0#5 from of_decide_eq_true hz] at whole
    rw [instrOfFields, encode, encC_eq_assemble, encImm_fieldImm]; exact whole

/-- Settles O2: a word that decodes is the word of its row's fields. -/
theorem decodeThenEncodeGivesTheWord : Obligations.DecodeThenEncodeGivesTheWord := by
  intro w i h
  obtain ⟨op, hop, hz, rfl⟩ := decodeWord_eq_ok h
  exact ⟨wellFormed_instrOfFields op w, encode_instrOfFields hop hz⟩

end Sys2Proof
end

section
/-!
PROOFS of the family 'other', the decoder: opcodes outside the nine (30_encoding R60), and the operands of a record (40_fetch_decode R83, 30_encoding R51).
-/

namespace Sys2Proof

/-! ## Opcodes outside the nine -/

/-- The nine opcodes have the numbers 1 to 9 (30_encoding R56). -/
theorem opcodeNumber_bounds (op : Opcode) : 1 ≤ (opcodeNumber op).toNat ∧ (opcodeNumber op).toNat ≤ 9 := by cases op <;> decide

/-- A word whose top four bits are 0 or 10 to 15 has no row, and `info` is that number (30_encoding R60). -/
theorem decodeWord_of_no_row {w : BitVec 32} (h : w.toNat / 2 ^ 28 = 0 ∨ 10 ≤ w.toNat / 2 ^ 28) :
    decodeWord w = .error { cause := .unrecognisedOpcode, info := ((w.toNat / 2 ^ 28 : Nat) : Int) } := by
  rw [← fieldOp_toNat] at h ⊢
  cases hop : opcodeOfNumber (fieldOp w) with
  | none => simp only [decodeWord, hop]
  | some op =>
    obtain ⟨hlo, hhi⟩ := opcodeNumber_bounds op
    rw [opcodeOfNumber_eq_some hop] at h
    omega

namespace Machine

theorem mnemonicText_mem (op : Opcode) :
    mnemonicText op ∈ [['A', 'D', 'D', 'I'], ['A', 'D', 'D'], ['S', 'U', 'B', 'I'], ['B'], ['B', 'L'], ['B', 'R'], ['C', 'B', 'Z'],
      ['L', 'D', 'U', 'R'], ['S', 'T', 'U', 'R']] := by cases op <;> decide

/-- A record whose opcode token is no mnemonic is refused (30_encoding R60). -/
theorem decodeRecord_of_no_mnemonic (x : Xlen) {r : InstrRecord} (h : ∀ op, r.opcode ≠ mnemonicText op) :
    decodeRecord x r = .error { cause := .unrecognisedOpcode, info := wrap x (Config.recordOpcodeInfo r.opcode) } := by
  unfold decodeRecord
  cases hop : opcodeOfText r.opcode with
  | none => rfl
  | some op => exact absurd ((opcodeOfText_eq_some _ _).1 hop) (h op)

/-! ## The statements on words -/

/-- Settles O3, by evaluating the decoder on the nine words. -/
theorem wordsOfTheSpecDecode : Obligations.WordsOfTheSpecDecode := by
  unfold Obligations.WordsOfTheSpecDecode; decide

/-- Settles O4: neither decoder knows the opcode, and the step raises the refusal. -/
theorem unrecognisedOpcodeAborts : Obligations.UnrecognisedOpcodeAborts := by
  refine ⟨fun s c w hen hpc hf hw hop => ?word, fun s c r hen hpc hf hr hop => ?record⟩
  case word => exact step_of_decode_error hen hpc hf (by rw [hw]; exact decodeWord_of_no_row hop)
  case record =>
    have unknown : ∀ op, r.opcode ≠ mnemonicText op := fun op h => hop (h ▸ mnemonicText_mem op)
    exact ⟨_, step_of_decode_error hen hpc hf (by rw [hr]; exact decodeRecord_of_no_mnemonic s.params.xlen unknown)⟩

/-! ## Records -/

/-- A record with a mnemonic decodes by its operands. -/
theorem decodeCode_of_mnemonic (x : Xlen) {c : Code} {r : InstrRecord} {op : Opcode} (hc : c = .record r) (h : r.opcode = mnemonicText op) :
    decodeCode x c = decodeOperands x op r.operands := by
  simp only [hc, decodeCode, decodeRecord, (opcodeOfText_eq_some _ _).2 h]

/-- Settles O6: the three answers of the operand decoder, and the two refusals of a word. -/
theorem recordDecodeErrors : Obligations.RecordDecodeErrors := by
  refine ⟨fun s c r op hen hpc hf hr hop => ⟨fun hl => ?count, fun j kd hbad => ?token, fun hl hok => ?good⟩, fun w e h => ?word⟩
  case count => exact step_of_decode_error hen hpc hf ((decodeCode_of_mnemonic _ hr hop).trans (decodeOperands_count hl))
  case token => exact step_of_decode_error hen hpc hf ((decodeCode_of_mnemonic _ hr hop).trans (decodeOperands_bad hbad))
  case good =>
    obtain ⟨i, hi, hwf, hgives, hd⟩ := decodeOperands_ok hl hok
    exact ⟨i, hi, hwf, hgives, step_of_fetches hen hpc ⟨hf, (decodeCode_of_mnemonic _ hr hop).trans hd⟩⟩
  case word =>
    obtain rfl | rfl := decodeWord_error_cases h
    · exact .inl rfl
    · exact .inr rfl

/-- A decimal numeral is none of the words SP, LR and XZR, so it names the register of its value. -/
theorem regNamed_of_isDecimal {t : Text} (h : isDecimal t = true) :
    (regNamed t).map Fin.val = if decimalValue t < 32 then some (decimalValue t) else none := by
  have ne_word : ∀ a : Text, isDecimal a = false → t ≠ a := by rintro a ha rfl; rw [h] at ha; cases ha
  rw [regNamed, if_neg (ne_word _ (by decide)), if_neg (ne_word _ (by decide)), if_neg (ne_word _ (by decide)), if_pos h]
  split <;> rfl

theorem intSpelled_of_isDecimal {t : Text} (h : isDecimal t = true) : intSpelled t = some (decimalValue t : Int) := if_pos h

/-- A leading minus sign negates the numeral after it (30_encoding R51). -/
theorem intSpelled_minus {t : Text} (h : isDecimal t = true) : intSpelled ('-' :: t) = some (-(decimalValue t : Int)) := by
  have hn : isDecimal ('-' :: t) = false := by simp [isDecimal]
  simp [intSpelled, hn, h]

section
variable {x : Xlen} {t0 t1 t2 : Text} {r0 r1 r2 : RegIdx} {c : Int}

theorem decodeRegRegReg_of_named (mk : RegIdx → RegIdx → RegIdx → Instr) (h0 : regNamed t0 = some r0) (h1 : regNamed t1 = some r1)
    (h2 : regNamed t2 = some r2) : decodeRegRegReg x mk [t0, t1, t2] = .ok (mk r0 r1 r2) := by
  simp only [decodeRegRegReg, decodeReg_of_named h0, decodeReg_of_named h1, decodeReg_of_named h2]; rfl

theorem decodeRegRegImm_of_named (mk : RegIdx → RegIdx → Int → Instr) (h0 : regNamed t0 = some r0) (h1 : regNamed t1 = some r1)
    (h2 : immNamed x t2 = some c) : decodeRegRegImm x mk [t0, t1, t2] = .ok (mk r0 r1 c) := by
  simp only [decodeRegRegImm, decodeReg_of_named h0, decodeReg_of_named h1, decodeImm_of_named h2]; rfl

theorem decodeTarget_of_named (mk : RegIdx → Instr) (h0 : regNamed t0 = some r0) : decodeTarget x mk [t0] = .ok (mk r0) := by
  simp only [decodeTarget, decodeReg_of_named h0]; rfl

theorem decodeRegOffset_of_named (mk : RegIdx → Int → Instr) (h0 : regNamed t0 = some r0) (h1 : immNamed x t1 = some c) :
    decodeRegOffset x mk [t0, t1] = .ok (mk r0 c) := by
  simp only [decodeRegOffset, decodeReg_of_named h0, decodeImm_of_named h1]; rfl

theorem decodeOffset_of_named (mk : Int → Instr) (h0 : immNamed x t0 = some c) : decodeOffset x mk [t0] = .ok (mk c) := by
  simp only [decodeOffset, decodeImm_of_named h0]; rfl

end

/-- Settles O7: the readers are the terms of the statement, and each mnemonic's operands are read by them in order. -/
theorem recordTokensGiveTheFields : Obligations.RecordTokensGiveTheFields := by
  refine ⟨⟨by decide, by decide, by decide, fun t h => ?numeral⟩, fun t h => ?constant, fun x t0 t1 t2 r0 r1 r2 h0 h1 h2 => ?registers,
    fun x t0 t1 t2 r0 r1 c h0 h1 h2 => ?immediates⟩
  case numeral => rw [readRegIdx_eq]; exact regNamed_of_isDecimal h
  case constant => simp only [readInt_eq]; exact ⟨intSpelled_of_isDecimal h, intSpelled_minus h⟩
  case registers => exact ⟨decodeRegRegReg_of_named (x := x) .add h0 h1 h2, decodeTarget_of_named (x := x) .br h0⟩
  case immediates =>
    exact ⟨decodeRegRegImm_of_named .addi h0 h1 h2, decodeRegRegImm_of_named .subi h0 h1 h2, decodeRegRegImm_of_named .ldur h0 h1 h2,
      decodeRegRegImm_of_named .stur h0 h1 h2, decodeRegOffset_of_named .cbz h0 h2, decodeOffset_of_named .b h2, decodeOffset_of_named .bl h2⟩

end Machine
end Sys2Proof
end

section
/-!
PROOFS of the family 'other', the registers (00_scope section 5.1, 10_state R11 to R21) and the frames of the instructions: first what `wrap` is, then what
an instruction keeps whatever its outcome, field by field.
-/

namespace Sys2Proof

/-! ## `wrap` -/

theorem two_mul_half (x : Xlen) : 2 * x.half = 2 ^ x.bits := by cases x <;> rfl

/-- `wrap` moves a value by a multiple of `2^XLEN`. -/
theorem wrap_sub_mod (x : Xlen) (v : Int) : (wrap x v - v) % (2 * x.half) = 0 := by
  have moved : wrap x v - v = 2 * x.half * -((v + x.half) / (2 * x.half)) := by
    rw [wrap, Int.emod_def]; ring
  rw [moved, Int.mul_emod_right]

/-- Two values of XLEN bits that differ by a multiple of `2^XLEN` are the same. -/
theorem eq_of_fits_of_sub_mod {x : Xlen} {r v : Int} (hr : Fits x r) (hv : Fits x v) (h : (r - v) % (2 * x.half) = 0) : r = v := by
  obtain ⟨k, hk⟩ := Int.dvd_of_emod_eq_zero h
  cases x <;> simp only [Fits, Xlen.half] at hr hv hk <;> omega

/-- Settles O15: the range and the congruence of `wrap`, and that two values in the range are not congruent. -/
theorem wrapIsTwosComplement : Obligations.WrapIsTwosComplement := by
  intro x v
  rw [← Xlen.half_eq_pow, ← two_mul_half]
  obtain ⟨hlo, hhi⟩ := wrap_fits x v
  refine ⟨⟨hlo, by omega⟩, wrap_sub_mod x v, fun r hrlo hrhi hr => eq_of_fits_of_sub_mod ⟨hrlo, by omega⟩ ⟨hlo, hhi⟩ ?_⟩
  have difference : r - wrap x v = (r - v) - (wrap x v - v) := by ring
  rw [difference, Int.sub_emod, hr, wrap_sub_mod]; rfl

namespace Machine

/-! ## A register read after a register write -/

/-- Settles O14, clause by clause from the one lemma on a read after a write and the one on the flag. -/
theorem registerReadAfterWrite : Obligations.RegisterReadAfterWrite := by
  refine fun s i j v => ⟨if_pos rfl, fun hi => ?_, fun hj => ?_, if_pos rfl, fun hi => ?_, fun hi => ?_⟩
  · rw [readReg_writeReg, if_pos ⟨rfl, hi⟩]
  · rw [readReg_writeReg, if_neg (fun h => hj h.1)]
  · rw [writeReg_spMod, if_pos hi]
  · rw [writeReg_spMod, if_neg hi]

/-! ## An event that is taken ends the run -/

/-- No status is `Running` after an event. -/
theorem takeEvent_not_running {st : Status} (hst : st ≠ .running) (s : State) (f : FaultRecord) : (takeEvent s st f).status ≠ .running := by
  obtain ⟨h, hne⟩ | ⟨-, h⟩ := takeEvent_status_cases s st f <;> rw [h]
  · exact hne
  · exact hst

theorem decodeError_not_running (s : State) (c : Cause) (pc0 info : Int) : (decodeError s c pc0 info).status ≠ .running :=
  takeEvent_not_running (by decide) _ _

/-- A stack check that leaves the machine `Running` did nothing. -/
theorem checkSp_eq_of_running {s : State} {pc0 : Int} (h : (checkSp s pc0).status = .running) : checkSp s pc0 = s := by
  obtain ⟨heq, -⟩ | ⟨-, c, -, heq⟩ := checkSp_cases s pc0
  · exact heq
  · rw [heq] at h; exact absurd h (takeEvent_not_running (by decide) _ _)

/-- Stages 4 and 5 of a non-branch cycle that leave the machine `Running` leave the fault record alone. -/
theorem retireNext_fault_of_running {s : State} {pc0 : Int} (h : (retireNext s pc0).status = .running) :
    (retireNext s pc0).fault = s.fault := by
  rw [retireNext] at h ⊢
  have unchecked := checkSp_eq_of_running h
  rw [unchecked] at h ⊢
  unfold updatePcNext at h ⊢
  split_ifs at h ⊢
  · exact absurd h (takeEvent_not_running (by decide) _ _)
  · exact writeReg_fault ..

/-- Stages 4 and 5 of a branch-class cycle that leave the machine `Running` leave the fault record alone. -/
theorem retireBranch_fault_of_running {s : State} {pc0 : Int} (h : (retireBranch s pc0).status = .running) :
    (retireBranch s pc0).fault = s.fault := by
  rw [retireBranch] at h ⊢
  have unchecked := checkSp_eq_of_running h
  rw [unchecked] at h ⊢
  unfold updatePcBranch at h ⊢
  split_ifs at h ⊢
  · exact absurd h (takeEvent_not_running (by decide) _ _)
  · rfl

/-! ## What an instruction keeps -/

section
variable {s t : State} {i : Instr} (he : exec i s = .next t)
include he

/-- The parameters, the phase and the latch are no instruction's business. -/
theorem exec_keeps : t.params = s.params ∧ t.phase = s.phase ∧ t.last = s.last := by
  obtain ⟨t', he', h⟩ := exec_cases i s
  cases he.symm.trans he'
  obtain ⟨c, info, rfl, -⟩ | ⟨rd, v, -, -, rfl⟩ | ⟨rd, rn, imm, -, -, -, rfl⟩ | ⟨v, -, rfl⟩ | ⟨-, rfl⟩ | ⟨imm, -, rfl⟩ := h <;>
    simp [decodeError]

/-- The fault record is written by an event alone (10_state R20). -/
theorem exec_fault_of_running (ht : t.status = .running) : t.fault = s.fault := by
  obtain ⟨t', he', h⟩ := exec_cases i s
  cases he.symm.trans he'
  obtain ⟨c, info, rfl, -⟩ | ⟨rd, v, -, -, rfl⟩ | ⟨rd, rn, imm, -, -, -, rfl⟩ | ⟨v, -, rfl⟩ | ⟨-, rfl⟩ | ⟨imm, -, rfl⟩ := h
  · exact absurd ht (decodeError_not_running _ _ _ _)
  · exact (retireNext_fault_of_running ht).trans (writeReg_fault ..)
  · exact retireNext_fault_of_running ht
  · exact (retireBranch_fault_of_running ht).trans (writeReg_fault ..)
  · exact retireBranch_fault_of_running ht
  · exact (retireBranch_fault_of_running ht).trans (by simp)

/-- The memory after an instruction: as before, or one data cell written by STUR, or a range emptied by BL. -/
theorem exec_mem_cases :
    t.mem = s.mem ∨
      (∃ rd rn imm, i = .stur rd rn imm ∧ CellExists s (operandIndex s rn imm) ∧
        t.mem = Memory.write s.mem (operandIndex s rn imm).toNat (.data (operandIndex s rn imm * stride rn).toNat (readReg s rd))) ∨
      (∃ imm, i = .bl imm ∧ t.mem = Memory.clear s.mem (clearLo s) clearHi) := by
  obtain ⟨t', he', h⟩ := exec_cases i s
  cases he.symm.trans he'
  obtain ⟨c, info, rfl, -⟩ | ⟨rd, v, -, -, rfl⟩ | ⟨rd, rn, imm, hi, hex, -, rfl⟩ | ⟨v, -, rfl⟩ | ⟨-, rfl⟩ | ⟨imm, hi, rfl⟩ := h
  · exact .inl (takeEvent_mem ..)
  · exact .inl (by simp)
  · exact .inr (.inl ⟨rd, rn, imm, hi, hex, retireNext_mem ..⟩)
  · exact .inl (by simp)
  · exact .inl (retireBranch_mem ..)
  · exact .inr (.inr ⟨imm, hi, by simp⟩)

/-- The flag is set by a write of SP alone (10_state R21). -/
theorem exec_spMod_cases : t.spMod = s.spMod ∨ destReg? i = some .SP ∨ ∃ imm, i = .bl imm := by
  obtain ⟨t', he', h⟩ := exec_cases i s
  cases he.symm.trans he'
  obtain ⟨c, info, rfl, -⟩ | ⟨rd, v, hd, -, rfl⟩ | ⟨rd, rn, imm, -, -, -, rfl⟩ | ⟨v, -, rfl⟩ | ⟨-, rfl⟩ | ⟨imm, hi, rfl⟩ := h
  · exact .inl (takeEvent_spMod ..)
  · by_cases hsp : rd = .SP
    · exact .inr (.inl (hsp ▸ hd))
    · exact .inl (by simp [writeReg_spMod, hsp])
  · exact .inl (retireNext_spMod ..)
  · exact .inl (by simp [writeReg_spMod])
  · exact .inl (retireBranch_spMod ..)
  · exact .inr (.inr ⟨imm, hi⟩)

/-- An instruction that is neither STUR nor BL leaves the memory alone. -/
theorem exec_mem_eq (hst : ∀ rd rn imm, i ≠ .stur rd rn imm) (hbl : ∀ imm, i ≠ .bl imm) : t.mem = s.mem := by
  obtain h | ⟨rd, rn, imm, hi, -⟩ | ⟨imm, hi, -⟩ := exec_mem_cases he
  · exact h
  · exact absurd hi (hst rd rn imm)
  · exact absurd hi (hbl imm)

/-- An instruction that does not write SP leaves the flag alone. -/
theorem exec_spMod_eq (hd : destReg? i ≠ some .SP) (hbl : ∀ imm, i ≠ .bl imm) : t.spMod = s.spMod := by
  obtain h | h | ⟨imm, h⟩ := exec_spMod_cases he
  · exact h
  · exact absurd h hd
  · exact absurd h (hbl imm)

end

/-! ## The frames -/

/-- Settles O17, by the cases of what an instruction does to a register that is not the pc. -/
theorem registersChangeOnlyWhereNamed : Obligations.RegistersChangeOnlyWhereNamed := by
  intro s t i j he hpc hd hbl
  obtain h | ⟨h, -⟩ | ⟨h, imm, hi⟩ := exec_storedReg_cases he hpc
  · exact h
  · exact absurd h hd
  · exact absurd hi (hbl h imm)

/-- Settles O27: an instruction with a destination is neither STUR nor BL. -/
theorem registerDestinationFrame : Obligations.RegisterDestinationFrame := by
  intro s t i rd hd he
  have notStur : ∀ rd' rn imm, i ≠ .stur rd' rn imm := by rintro rd' rn imm rfl; cases hd
  have notBl : ∀ imm, i ≠ .bl imm := by rintro imm rfl; cases hd
  have hmem := exec_mem_eq he notStur notBl
  obtain ⟨hparams, hphase, hlast⟩ := exec_keeps he
  refine ⟨fun j hj hpc => ?regs, readCell_congr hmem, hmem, hparams, hphase, hlast, fun hsp => ?flag, exec_fault_of_running he⟩
  case regs =>
    have other : destReg? i ≠ some j := fun h => hj (Option.some.inj (h.symm.trans hd))
    exact registersChangeOnlyWhereNamed s t i j he hpc other fun _ => notBl
  case flag => exact exec_spMod_eq he (fun h => hsp (Option.some.inj (hd.symm.trans h))) notBl

/-- Settles O28: a jump has no destination and is neither STUR nor BL. -/
theorem jumpFrame : Obligations.JumpFrame := by
  intro s t i hj he
  have notStur : ∀ rd' rn imm, i ≠ .stur rd' rn imm := by rintro rd' rn imm rfl; cases hj
  have notBl : ∀ imm, i ≠ .bl imm := by rintro imm rfl; cases hj
  have noDest : ∀ j, destReg? i ≠ some j := by cases i with
    | b | br | cbz => nofun
    | addi | add | subi | bl | ldur | stur => cases hj
  have hmem := exec_mem_eq he notStur notBl
  obtain ⟨hparams, hphase, hlast⟩ := exec_keeps he
  exact ⟨fun j hpc => registersChangeOnlyWhereNamed s t i j he hpc (noDest j) fun _ => notBl, readCell_congr hmem, hmem, hparams, hphase, hlast,
    exec_spMod_eq he (noDest .SP) notBl, exec_fault_of_running he⟩

/-- Settles O29: BL names no destination, and its clearing is the only change to the cells. -/
theorem blFrame : Obligations.BlFrame := by
  intro s t imm he
  obtain ⟨hparams, hphase, hlast⟩ := exec_keeps he
  refine ⟨fun j hpc hsp => ?regs, fun k hk => ?cells, hparams, hphase, hlast, exec_fault_of_running he⟩
  case regs => exact registersChangeOnlyWhereNamed s t _ j he hpc nofun fun h => absurd h hsp
  case cells => rw [readCell_of_exec_bl he, if_neg (by omega)]

/-- Settles O30: STUR names no destination, and the one cell it can change is at its effective index. -/
theorem storeFrame : Obligations.StoreFrame := by
  intro s t rd rn imm hm he
  obtain ⟨hparams, hphase, hlast⟩ := exec_keeps he
  refine ⟨fun j hpc => ?regs, fun k hk => ?cells, hparams, hphase, hlast, exec_spMod_eq he nofun nofun, exec_fault_of_running he⟩
  case regs => exact registersChangeOnlyWhereNamed s t _ j he hpc nofun fun _ => nofun
  case cells =>
    obtain h | ⟨rd', rn', imm', hi, hk', -⟩ | ⟨imm', hi, -⟩ := exec_readCell_cases hm he k
    · exact h
    · cases hi; exact absurd hk' hk
    · cases hi

end Machine

end Sys2Proof
end

section
/-!
PROOFS of the family 'other', the invariant of the machine (10_state R13, R15, R20, R29): the part of it that every shared operation keeps by itself, then the
instruction, the step and the events of the host, and what it says of the program's cells (70_reset_and_hazards R170).
-/

namespace Sys2Proof.Machine

/-! ## The part that every operation keeps by itself -/

/-- The invariant without the parameters, the stack window and the phase, which the operations inside a cycle do not keep one by one. -/
structure Sound (s : State) : Prop where
  xzr_zero : XzrZero s
  regs_fit : RegsFit s
  mem_canonical : MemCanonical s
  cells_in_array : CellsInArray s
  cell_values_fit : CellValuesFit s
  fault_zero : FaultZeroWhileRunning s
  fault_fits : FaultFits s

theorem State.Inv.sound {s : State} (h : s.Inv) : Sound s :=
  ⟨h.xzr_zero, h.regs_fit, h.mem_canonical, h.cells_in_array, h.cell_values_fit, h.fault_zero, h.fault_fits⟩

theorem Sound.inv {s : State} (h : Sound s) (hp : ParamsLegal s) (hsp : SpInWindow s) (hl : LoadIsRunning s) : s.Inv :=
  ⟨hp, h.xzr_zero, h.regs_fit, h.mem_canonical, h.cells_in_array, h.cell_values_fit, hsp, h.fault_zero, hl, h.fault_fits⟩

theorem fits_zero (x : Xlen) : Fits x 0 := fits_of_small le_rfl (by decide)

namespace Sound

variable {s : State} (h : Sound s)
include h

theorem readReg_fits (i : RegIdx) : Fits s.params.xlen (readReg s i) := by
  unfold readReg
  split
  · exact fits_zero _
  · exact h.regs_fit i

/-! ### The flag and the latch are free -/

theorem beginCycle : Sound (beginCycle s) :=
  ⟨h.xzr_zero, h.regs_fit, h.mem_canonical, h.cells_in_array, h.cell_values_fit, h.fault_zero, h.fault_fits⟩

theorem latch (c : InstrCell) : Sound (latch s c) :=
  ⟨h.xzr_zero, h.regs_fit, h.mem_canonical, h.cells_in_array, h.cell_values_fit, h.fault_zero, h.fault_fits⟩

/-! ### Writing a register -/

theorem setReg {i : RegIdx} {v : Int} (hi : i ≠ .XZR) (hv : Fits s.params.xlen v) : Sound (setReg s i v) := by
  refine ⟨?xzr, fun j => ?regs, h.mem_canonical, h.cells_in_array, h.cell_values_fit, h.fault_zero, h.fault_fits⟩
  case xzr => rw [XzrZero, storedReg_setReg, if_neg hi.symm]; exact h.xzr_zero
  case regs =>
    rw [storedReg_setReg]
    split
    · exact hv
    · exact h.regs_fit j

theorem writeReg {i : RegIdx} (hi : i ≠ .XZR) (v : Int) : Sound (writeReg s i v) := by
  have stored := h.setReg hi (wrap_fits s.params.xlen v)
  by_cases hsp : i = .SP
  · subst hsp
    rw [writeReg_SP]
    exact ⟨stored.xzr_zero, stored.regs_fit, stored.mem_canonical, stored.cells_in_array, stored.cell_values_fit, stored.fault_zero,
      stored.fault_fits⟩
  · rw [writeReg_eq_setReg hsp hi]; exact stored

/-! ### Writing and emptying cells -/

theorem writeCell {k : Nat} {c : MemCell} (hk : k < s.params.memCells) (hc : MemCell.valueFits s.params.xlen c = true) :
    Sound (writeCell s k c) :=
  ⟨h.xzr_zero, h.regs_fit, Memory.wf_write h.mem_canonical k c, Memory.forall_write h.cells_in_array hk,
    Memory.forall_write h.cell_values_fit hc, h.fault_zero, h.fault_fits⟩

theorem clearCells (lo hi : Int) : Sound (clearCells s lo hi) :=
  ⟨h.xzr_zero, h.regs_fit, Memory.wf_clear h.mem_canonical lo hi, Memory.forall_clear h.cells_in_array,
    Memory.forall_clear h.cell_values_fit, h.fault_zero, h.fault_fits⟩

/-! ### Taking an event -/

theorem takeEvent {st : Status} {f : FaultRecord} (hst : st ≠ .running) (haddr : Fits s.params.xlen f.addr)
    (hinfo : Fits s.params.xlen f.info) : Sound (takeEvent s st f) := by
  obtain ⟨heq, -⟩ | ⟨-, heq⟩ := takeEvent_status_cases s st f <;> rw [heq]
  · exact h
  · exact ⟨h.xzr_zero, h.regs_fit, h.mem_canonical, h.cells_in_array, h.cell_values_fit, fun hrun => absurd hrun hst, haddr, hinfo⟩

theorem halt {st : Status} {pc0 : Int} (hst : st ≠ .running) (hpc : Fits s.params.xlen pc0) : Sound (halt s st pc0) :=
  h.takeEvent hst hpc (fits_zero _)

theorem decodeError {pc0 info : Int} (c : Cause) (hpc : Fits s.params.xlen pc0) (hinfo : Fits s.params.xlen info) :
    Sound (decodeError s c pc0 info) := h.takeEvent (by decide) hpc hinfo

theorem checkSp {pc0 : Int} (hpc : Fits s.params.xlen pc0) : Sound (checkSp s pc0) := by
  obtain ⟨heq, -⟩ | ⟨-, c, -, heq⟩ := checkSp_cases s pc0 <;> rw [heq]
  · exact h
  · exact h.takeEvent (by decide) hpc (h.readReg_fits .SP)

/-! ### Ending a cycle -/

theorem retireNext {pc0 : Int} (hpc : Fits s.params.xlen pc0) : Sound (retireNext s pc0) := by
  have updated : Sound (updatePcNext s pc0) := by
    unfold updatePcNext
    split
    · exact h.halt (by decide) hpc
    · exact h.writeReg (by decide) _
  exact updated.checkSp (by rwa [updatePcNext_params])

theorem retireBranch {pc0 : Int} (hpc : Fits s.params.xlen pc0) : Sound (retireBranch s pc0) := by
  have updated : Sound (updatePcBranch s pc0) := by
    unfold updatePcBranch
    split
    · exact h.halt (by decide) hpc
    · exact h
  exact updated.checkSp (by rwa [updatePcBranch_params])

/-! ### The instruction -/

/-- The effective index of an operand whose offset has XLEN bits has XLEN bits. -/
theorem operandIndex_fits (rn : RegIdx) {imm : Int} (himm : Fits s.params.xlen imm) : Fits s.params.xlen (operandIndex s rn imm) :=
  effIndex_fits (h.readReg_fits rn) himm (stride_cases rn)

theorem exec {t : State} {i : Instr} (himm : i.ImmFits s.params.xlen) (he : exec i s = .next t) : Sound t := by
  have hpc : Fits s.params.xlen (pc s) := h.readReg_fits .PC
  obtain ⟨t', he', hcases⟩ := exec_cases i s
  cases he.symm.trans he'
  obtain ⟨c, info, rfl, hc⟩ | ⟨rd, v, -, hx, rfl⟩ | ⟨rd, rn, imm, -, ⟨hlo, hhi⟩, -, rfl⟩ | ⟨v, -, rfl⟩ | ⟨-, rfl⟩ | ⟨imm, -, rfl⟩ := hcases
  · obtain ⟨-, rfl⟩ | ⟨-, rn, imm, hi, rfl⟩ := hc
    · exact h.decodeError c hpc (fits_of_small (by decide) (by decide))
    · exact h.decodeError c hpc (h.operandIndex_fits rn (himm imm hi))
  · exact (h.writeReg hx v).retireNext (by simpa using hpc)
  · have stored : MemCell.valueFits s.params.xlen (.data (operandIndex s rn imm * stride rn).toNat (readReg s rd)) = true :=
      decide_eq_true (h.readReg_fits rd)
    exact (h.writeCell (by omega) stored).retireNext hpc
  · exact (h.writeReg (by decide) v).retireBranch (by simpa using hpc)
  · exact h.retireBranch hpc
  · exact (((h.clearCells _ _).writeReg (by decide) _).writeReg (by decide) _).retireBranch (by simpa using hpc)

/-! ### The step -/

/-- The `info` of a failed fetch is the pc or its quotient by 4. -/
theorem fetch_info_fits {c : Cause} {info : Int} (hf : fetchCell s (pc s) = .error c info) : Fits s.params.xlen info := by
  have hpc : Fits s.params.xlen (pc s) := h.readReg_fits .PC
  obtain ⟨-, heq⟩ | ⟨-, heq⟩ | ⟨-, heq⟩ | ⟨a, v, -, heq⟩ | ⟨ic, heq⟩ := fetchCell_cases s (pc s) <;> cases hf.symm.trans heq
  · exact hpc
  · exact hpc
  · have bounds := tdiv_bounds hpc (.inl rfl)
    rw [tdiv_eq_tdiv _ (by decide)] at bounds
    have hpos := s.params.xlen.half_pos
    exact ⟨by omega, by omega⟩

theorem step {t : State} (hs : step s = .next t) : Sound t := by
  have hpc : Fits s.params.xlen (pc s) := h.readReg_fits .PC
  obtain ⟨-, heq⟩ | ⟨-, -, heq⟩ | ⟨-, -, ⟨c, info, hf, heq⟩ | ⟨-, heq⟩ | ⟨c, e, -, hd, heq⟩ | ⟨c, i, -, hd, heq⟩⟩ := step_cases s <;>
    rw [hs] at heq
  · cases heq; exact h
  · cases heq; exact h.beginCycle.halt (by decide) hpc
  · cases heq; exact h.beginCycle.decodeError c hpc (h.fetch_info_fits hf)
  · cases heq; exact h.beginCycle.halt (by decide) hpc
  · cases heq
    obtain ⟨i, hi, -⟩ | ⟨e', he', hproper⟩ := decodeCode_answers s.params.xlen c.code
    · cases hd.symm.trans hi
    · cases hd.symm.trans he'
      exact (h.beginCycle.latch c).decodeError e.cause hpc hproper.info_fits
  · obtain ⟨i', hi', himm⟩ | ⟨e, he, -⟩ := decodeCode_answers s.params.xlen c.code
    · cases hd.symm.trans hi'
      exact (h.beginCycle.latch c).exec himm heq.symm
    · cases hd.symm.trans he

end Sound

/-! ## What a step keeps -/

/-- No step changes the parameters or the phase. -/
theorem step_keeps {s t : State} (h : step s = .next t) : t.params = s.params ∧ t.phase = s.phase := by
  obtain ⟨-, hs⟩ | ⟨-, -, hs⟩ | ⟨-, -, ⟨c, info, -, hs⟩ | ⟨-, hs⟩ | ⟨c, e, -, -, hs⟩ | ⟨c, i, -, -, hs⟩⟩ := step_cases s <;> rw [h] at hs
  · cases hs; exact ⟨rfl, rfl⟩
  · cases hs; exact ⟨takeEvent_params .., takeEvent_phase ..⟩
  · cases hs; exact ⟨takeEvent_params .., takeEvent_phase ..⟩
  · cases hs; exact ⟨takeEvent_params .., takeEvent_phase ..⟩
  · cases hs; exact ⟨takeEvent_params .., takeEvent_phase ..⟩
  · obtain ⟨hparams, hphase, -⟩ := exec_keeps (s := latch (beginCycle s) c) hs.symm
    exact ⟨hparams, hphase⟩

/-! ## The invariant -/

/-- Settles O39: each operation of a cycle keeps the part `Sound`, and the step as a whole keeps the stack window, by its two ends, and the phase. -/
theorem stepKeepsTheInvariant : Obligations.StepKeepsTheInvariant := by
  intro s t hinv h
  by_cases hen : Enabled s
  · obtain ⟨hparams, hphase⟩ := step_keeps h
    refine (hinv.sound.step h).inv (by rw [ParamsLegal, hparams]; exact hinv.params_legal) (fun hrun => ?window) (fun hload => ?load)
    case window =>
      obtain ⟨c, i, -, -, hbad⟩ | ⟨hok, -, -⟩ := step_sp_cases_of_inv hinv hen h
      · rw [hbad.status_eq] at hrun; cases hrun
      · rwa [hparams]
    case load => rw [hphase, hen.1] at hload; cases hload
  · cases h.symm.trans (step_of_not_enabled hen)
    exact hinv

/-- The reset state of a machine with legal parameters meets the invariant. -/
theorem resetWith_inv {p : Config.Params} (hp : p.Legal) : (State.resetWith p).Inv where
  params_legal := hp
  xzr_zero := storedReg_resetWith p .XZR
  regs_fit i := by
    rw [storedReg_resetWith]
    split_ifs <;> exact fits_of_small (by decide) (by decide)
  mem_canonical := Memory.wf_nil
  cells_in_array := nofun
  cell_values_fit := nofun
  sp_in_window _ := by
    rw [sp, readReg_resetWith, if_pos rfl]
    exact spOk_stackTop p
  fault_zero _ := rfl
  load_running _ := rfl
  fault_fits := ⟨fits_zero _, fits_zero _⟩

/-- Settles O38: the spec's defaults are legal. -/
theorem resetMeetsTheInvariant : Obligations.ResetMeetsTheInvariant := ⟨resetWith_inv (by decide), fun _ => resetWith_inv⟩

/-! ## The events of the host -/

/-- What the load port accepts (70_reset_and_hazards R163). -/
theorem hostEvent_load_eq_next_iff {k : Nat} {c : MemCell} {s t : State} :
    hostEvent (.load k c) s = .next t ↔
      s.phase = .load ∧ k < s.params.memCells ∧ loadableCell s.params.xlen c = true ∧ t = writeCell s k c := by
  rw [hostEvent, loadEvent]
  cases s.phase with
  | exec => simp
  | load =>
    by_cases hk : k < s.params.memCells <;> by_cases hc : loadableCell s.params.xlen c = true <;>
      simp [hk, hc, eq_comm (a := t)]

/-- `start` is accepted in the `Load` phase alone. -/
theorem load_of_hostEvent_start {s t : State} (h : hostEvent .start s = .next t) : s.phase = .load := by
  cases hphase : s.phase with
  | load => rfl
  | exec => rw [hostEvent_start_of_exec hphase] at h; cases h

/-- A cell the load port takes holds a value of XLEN bits, if it holds one. -/
theorem valueFits_of_loadable {x : Xlen} {c : MemCell} (h : loadableCell x c = true) : MemCell.valueFits x c = true := by
  cases c with
  | empty => rfl
  | instr => rfl
  | data a v => exact h

theorem load_keeps_inv {s : State} {k : Nat} {c : MemCell} (hinv : s.Inv) (hk : k < s.params.memCells)
    (hc : loadableCell s.params.xlen c = true) : (writeCell s k c).Inv :=
  (hinv.sound.writeCell hk (valueFits_of_loadable hc)).inv hinv.params_legal hinv.sp_in_window hinv.load_running

theorem start_keeps_inv {s : State} (hinv : s.Inv) : (startExec s).Inv := by
  have entered : Sound (setReg s .PC Config.entryPc) := hinv.sound.setReg (by decide) (fits_of_small (by decide) (by decide))
  have hsp : sp (startExec s) = sp s := readReg_setReg_of_ne s (by decide) _
  exact ⟨hinv.params_legal, entered.xzr_zero, entered.regs_fit, entered.mem_canonical, entered.cells_in_array, entered.cell_values_fit,
    by rw [SpInWindow, hsp]; exact hinv.sp_in_window, entered.fault_zero, nofun, entered.fault_fits⟩

/-- Settles O40, event by event. -/
theorem hostEventsKeepTheInvariant : Obligations.HostEventsKeepTheInvariant := by
  intro s t e hinv h
  cases e with
  | reset => cases h; exact resetWith_inv hinv.params_legal
  | load k c =>
    obtain ⟨-, hk, hc, rfl⟩ := hostEvent_load_eq_next_iff.1 h
    exact load_keeps_inv hinv hk hc
  | start => rw [hostEvent_start_eq_next h]; exact start_keeps_inv hinv
  | cont => exact stepKeepsTheInvariant s t hinv h

/-- Settles O55: reset keeps the parameters, a load write and `start` write one field, and a step keeps both. -/
theorem phaseAndParametersStay : Obligations.PhaseAndParametersStay := by
  intro s t e h
  cases e with
  | reset => cases h; exact ⟨rfl, fun hne => absurd rfl hne⟩
  | load k c => rw [hostEvent_load_eq_next h]; exact ⟨rfl, fun _ hphase => hphase⟩
  | start => rw [hostEvent_start_eq_next h]; exact ⟨rfl, fun _ _ => rfl⟩
  | cont =>
    obtain ⟨hparams, hphase⟩ := step_keeps h
    exact ⟨hparams, fun _ hexec => hphase.trans hexec⟩

/-- Settles O54: the accepted write at canonical memory, and the two refusals. -/
theorem loadPortWritesOneCell : Obligations.LoadPortWritesOneCell := by
  refine ⟨fun s k c hm hphase hk hc => ?accepted, fun s t k c hbad h => ?refused⟩
  case accepted =>
    exact ⟨_, Memory.wf_write hm k c, fun j => Memory.read_write hm k j c, hostEvent_load_eq_next_iff.2 ⟨hphase, hk, hc, rfl⟩⟩
  case refused =>
    obtain ⟨hload, hk, -, -⟩ := hostEvent_load_eq_next_iff.1 h
    obtain hexec | hout := hbad
    · rw [hload] at hexec; cases hexec
    · omega

/-! ## The program below the stack -/

/-- Settles O35: only BL empties an instruction cell, and under the invariant its range begins in the stack cells. -/
theorem programBelowTheStackIsNeverChanged : Obligations.ProgramBelowTheStackIsNeverChanged := by
  intro s t k c hinv h hk hc
  obtain hsame | ⟨-, hlo, -, hen, -⟩ := step_instrCell_cases hinv.mem_canonical h hc
  · exact hsame
  · obtain ⟨hstack, -, -⟩ := unwind_range_of_legal hinv.params_legal (hinv.sp_in_window hen.2)
    rw [tdiv_eq_tdiv _ (by decide)] at hlo
    omega

end Sys2Proof.Machine
end

section
/-!
PROOFS of the family 'other', the memory: the effective index (20_memory R33), the canonical form of the cell list (log entry 3), and that a store is read
back from the cell it wrote, by whichever operand names that cell (43_load_store R112, 20_memory R35).
-/

namespace Sys2Proof.Machine

/-! ## The effective index -/

/-- A sum of multiples is divided term by term. -/
theorem add_tdiv_of_multiples {b o n : Int} (hn : n ≠ 0) (hb : b % n = 0) (ho : o % n = 0) :
    Int.tdiv b n + Int.tdiv o n = Int.tdiv (b + o) n := by
  obtain ⟨x, rfl⟩ := Int.dvd_of_emod_eq_zero hb
  obtain ⟨y, rfl⟩ := Int.dvd_of_emod_eq_zero ho
  rw [← mul_add, Int.mul_tdiv_cancel_left _ hn, Int.mul_tdiv_cancel_left _ hn, Int.mul_tdiv_cancel_left _ hn]

/-- A sum of non-negative numbers without a carry of the remainders is divided term by term. -/
theorem add_tdiv_of_no_carry {b o n : Int} (hn : 0 < n) (hb : 0 ≤ b) (ho : 0 ≤ o) (hcarry : b % n + o % n < n) :
    Int.tdiv b n + Int.tdiv o n = Int.tdiv (b + o) n := by
  have split_off : b + o = b % n + o % n + n * (b / n + o / n) := by
    linarith [Int.emod_add_mul_ediv b n, Int.emod_add_mul_ediv o n]
  have small : (b % n + o % n) / n = 0 :=
    Int.ediv_eq_zero_of_lt (add_nonneg (Int.emod_nonneg b hn.ne') (Int.emod_nonneg o hn.ne')) hcarry
  rw [Int.tdiv_eq_ediv_of_nonneg hb, Int.tdiv_eq_ediv_of_nonneg ho, Int.tdiv_eq_ediv_of_nonneg (by omega), split_off,
    Int.add_mul_ediv_left _ _ hn.ne', small, zero_add]

/-- Settles O31: the stride by the base's index, the two cases of equality, and the spec's counterexample by evaluation. -/
theorem effectiveIndexDividesSeparately : Obligations.EffectiveIndexDividesSeparately := by
  refine ⟨fun s rn o => ?index, fun b o n hn h => ?equal, by decide, by decide⟩
  case index =>
    rw [operandIndex_eq_tdiv]
    by_cases h : rn = 28
    · rw [if_pos h, stride, if_pos h]; rfl
    · rw [if_neg h, stride, if_neg h]; rfl
  case equal =>
    have hpos : 0 < n := by omega
    rw [effIndex, tdiv_eq_tdiv _ hpos, tdiv_eq_tdiv _ hpos]
    obtain ⟨hb, ho⟩ | ⟨hb, ho, hcarry⟩ := h
    · exact add_tdiv_of_multiples hpos.ne' hb ho
    · exact add_tdiv_of_no_carry hpos hb ho hcarry

/-! ## The canonical form -/

/-- The entries of a canonical list are its cells that are not `Empty`. -/
theorem Memory.mem_iff {m : Memory} (hm : Memory.wf m) (e : Nat × MemCell) : e ∈ m ↔ Memory.read m e.1 = e.2 ∧ e.2 ≠ .empty := by
  obtain ⟨k, c⟩ := e
  refine ⟨fun h => ⟨Memory.read_of_mem hm h, hm.2 _ h⟩, fun ⟨hread, hne⟩ => ?_⟩
  simp only at hread hne
  subst hread
  exact Memory.mem_of_read hne

/-- Settles O36: the two lists have the same entries, in the one rising order. -/
theorem canonicalMemoryIsItsCells : Obligations.CanonicalMemoryIsItsCells := by
  intro m m' hm hm' h
  have entries : ∀ e, e ∈ m ↔ e ∈ m' := fun e => by rw [Memory.mem_iff hm, Memory.mem_iff hm', h]
  have rising : Std.Antisymm fun a b : Nat × MemCell => a.1 < b.1 := ⟨fun _ _ hab hba => absurd hab (lt_asymm hba)⟩
  have strict : Std.Irrefl fun a b : Nat × MemCell => a.1 < b.1 := ⟨fun a => lt_irrefl a.1⟩
  exact hm.1.eq_of_mem_iff hm'.1 entries

/-! ## A store and the load after it -/

/-- A STUR that leaves the machine `Running` wrote its cell and ended its cycle. -/
theorem exec_stur_of_running {s t : State} {rs rn : RegIdx} {imm : Int} (he : exec (.stur rs rn imm) s = .next t)
    (ht : t.status = .running) :
    CellExists s (operandIndex s rn imm) ∧
      t = retireNext (writeCell s (operandIndex s rn imm).toNat (.data (operandIndex s rn imm * stride rn).toNat (readReg s rs))) (pc s) := by
  cases hw : memWrite s (operandIndex s rn imm) (stride rn) (readReg s rs) with
  | ok s' =>
    obtain ⟨hex, -, rfl⟩ := (memWrite_ok_iff ..).1 hw
    cases he.symm.trans (exec_stur_of_ok hw)
    exact ⟨hex, rfl⟩
  | error e =>
    cases he.symm.trans (exec_stur_of_error hw)
    exact absurd ht (decodeError_not_running _ _ _ _)

/-- A cell that the handler wrote is there at the end of the cycle. -/
theorem readCell_retireNext_writeCell {s : State} (hm : MemCanonical s) (k : Nat) (c : MemCell) (pc0 : Int) :
    readCell (retireNext (writeCell s k c) pc0) k = c := by
  rw [readCell_congr (retireNext_mem ..), readCell_writeCell hm, if_pos rfl]

/-- The next read of the cell a STUR wrote gives the stored value. -/
theorem memRead_after_stur {s t : State} {rs rn : RegIdx} {imm : Int} (hm : MemCanonical s) (he : exec (.stur rs rn imm) s = .next t)
    (ht : t.status = .running) : memRead t (operandIndex s rn imm) = .ok (readReg s rs) := by
  obtain ⟨hex, rfl⟩ := exec_stur_of_running he ht
  exact (memRead_ok_iff ..).2 ⟨by simpa [CellExists] using hex, _, readCell_retireNext_writeCell hm ..⟩

/-- A load from the cell a STUR wrote gives the stored value, whichever operand names the cell. -/
theorem ldur_after_stur {s t : State} {rs rn rd rn' : RegIdx} {imm imm' : Int} (hm : MemCanonical s) (hfit : Fits s.params.xlen (readReg s rs))
    (he : exec (.stur rs rn imm) s = .next t) (ht : t.status = .running) (hpc : rd ≠ .PC) (hxzr : rd ≠ .XZR)
    (hk : operandIndex t rn' imm' = operandIndex s rn imm) : ∃ u, exec (.ldur rd rn' imm') t = .next u ∧ readReg u rd = readReg s rs := by
  obtain ⟨hparams, -, -⟩ := exec_keeps he
  have hread : memRead t (operandIndex t rn' imm') = .ok (readReg s rs) := hk ▸ memRead_after_stur hm he ht
  have exact_value := aluResult_exact (s := t) hpc hxzr (hparams ▸ hfit)
  exact ⟨_, exec_ldur_of_ok hxzr hread, exact_value.1⟩

/-- Settles O32: the base register is the same, so the operand names the cell that was written. -/
theorem storeThenLoadRoundTrips : Obligations.StoreThenLoadRoundTrips := by
  intro s t rs rn rd imm _ hm hfit he ht hbase hpc hxzr
  exact ldur_after_stur hm hfit he ht hpc hxzr (by rw [operandIndex, operandIndex, hbase])

/-- The general operand at absolute address `4k` names cell `k` (20_memory R35). -/
theorem operandIndex_absolute (s : State) (k : Int) : operandIndex s .XZR (4 * k) = k := by
  have base : readReg s .XZR = 0 := if_pos rfl
  have general : stride .XZR = 4 := by decide
  rw [operandIndex_eq_tdiv, base, general, Int.zero_tdiv, zero_add, Int.mul_tdiv_cancel_left _ (by decide)]

/-- Settles O33: the two operands name the same cell, since STUR leaves SP alone. -/
theorem stackAndGeneralViewsAlias : Obligations.StackAndGeneralViewsAlias := by
  refine fun s t rs rd off _ hm hfit ht hpc hxzr => ⟨fun he => ?stackThenGeneral, fun he => ?generalThenStack⟩
  case stackThenGeneral => exact ldur_after_stur hm hfit he ht hpc hxzr (operandIndex_absolute t _)
  case generalThenStack =>
    refine ldur_after_stur hm hfit he ht hpc hxzr ?_
    obtain ⟨hregs, -⟩ := storeFrame s t rs .XZR _ hm he
    rw [operandIndex_absolute, operandIndex, operandIndex, readReg, readReg, hregs .SP (by decide)]

end Sys2Proof.Machine
end

section
/-!
PROOFS of the family 'other', the `addr` fields of cells (20_memory R30, R37): every operation of a cycle takes two states that differ at most in them to two
that do, and answers the same otherwise. The operations come in the order of the model's files, and the step is the last.
-/

namespace Sys2Proof.Machine

/-- Both machines answer a next state, and the two differ at most in `addr` fields. -/
def SameNext (o o' : Result) : Prop := ∃ s t, o = .next s ∧ o' = .next t ∧ SameButAddrs s t

theorem SameNext.next {s t : State} (h : SameButAddrs s t) : SameNext (.next s) (.next t) := ⟨s, t, rfl, rfl, h⟩

/-- The three ways two cells differ at most in their `addr` fields. -/
theorem sameButAddr_cases {c d : MemCell} (h : sameButAddr c d = true) :
    (c = .empty ∧ d = .empty) ∨ (∃ a b, c = .instr a ∧ d = .instr b ∧ a.code = b.code) ∨ (∃ a b v, c = .data a v ∧ d = .data b v) := by
  cases c with
  | empty => cases d with
    | empty => exact .inl ⟨rfl, rfl⟩
    | instr | data => cases h
  | instr a => cases d with
    | instr b => exact .inr (.inl ⟨a, b, rfl, rfl, of_decide_eq_true h⟩)
    | empty | data => cases h
  | data a v => cases d with
    | data b w =>
      obtain rfl : v = w := of_decide_eq_true h
      exact .inr (.inr ⟨a, b, v, rfl, rfl⟩)
    | empty | instr => cases h

namespace SameButAddrs

variable {s t : State} (h : SameButAddrs s t)
include h

/-! ## Reads -/

theorem readReg_eq (i : RegIdx) : readReg s i = readReg t i := readReg_congr h.regs_eq i

theorem pc_eq : pc s = pc t := h.readReg_eq .PC

theorem sp_eq : sp s = sp t := h.readReg_eq .SP

theorem operandIndex_eq (rn : RegIdx) (imm : Int) : operandIndex s rn imm = operandIndex t rn imm := by
  rw [operandIndex, operandIndex, h.readReg_eq]

theorem cellExists_iff (k : Int) : CellExists s k ↔ CellExists t k := by rw [CellExists, CellExists, h.params_eq]

/-- A load sees the value of a cell and not its `addr` field (20_memory R36). -/
theorem memRead_eq (k : Int) : memRead s k = memRead t k := by
  unfold memRead
  rw [if_congr (h.cellExists_iff k) rfl rfl]
  obtain ⟨hs, ht⟩ | ⟨a, b, hs, ht, -⟩ | ⟨a, b, v, hs, ht⟩ := sameButAddr_cases (h.cells_eq k.toNat) <;> rw [hs, ht]

/-- A fetch sees the code of a cell and not its `addr` field (40_fetch_decode R72). -/
theorem fetchCell_cases (pc0 : Int) :
    (fetchCell s pc0 = fetchCell t pc0 ∧ ∀ c, fetchCell s pc0 ≠ .instr c) ∨
      (∃ c d, fetchCell s pc0 = .instr c ∧ fetchCell t pc0 = .instr d ∧ c.code = d.code) := by
  unfold fetchCell
  rw [if_congr (h.cellExists_iff _) rfl rfl]
  obtain ⟨hs, ht⟩ | ⟨a, b, hs, ht, hab⟩ | ⟨a, b, v, hs, ht⟩ := sameButAddr_cases (h.cells_eq (fetchIndex pc0).toNat) <;> rw [hs, ht]
  · exact .inl ⟨rfl, by split_ifs <;> nofun⟩
  · split_ifs
    · exact .inl ⟨rfl, nofun⟩
    · exact .inr ⟨a, b, rfl, rfl, hab⟩
    · exact .inl ⟨rfl, nofun⟩
  · exact .inl ⟨rfl, by split_ifs <;> nofun⟩

/-! ## The updates of one field -/

theorem setReg (i : RegIdx) (v : Int) : SameButAddrs (setReg s i v) (setReg t i v) :=
  { h with regs_eq := congrArg (fun r => r.set i.val v i.isLt) h.regs_eq }

theorem withSpMod (b : Bool) : SameButAddrs { s with spMod := b } { t with spMod := b } := { h with spMod_eq := rfl }

theorem latch {c d : InstrCell} (hcd : c.code = d.code) : SameButAddrs (latch s c) (latch t d) :=
  { h with last_eq := congrArg some hcd }

theorem writeReg (i : RegIdx) (v : Int) : SameButAddrs (writeReg s i v) (writeReg t i v) := by
  unfold Machine.writeReg
  rw [h.params_eq]
  split_ifs
  · exact h
  · exact (h.setReg i _).withSpMod true
  · exact h.setReg i _

theorem writeCell (hs : MemCanonical s) (ht : MemCanonical t) (k : Nat) {c d : MemCell} (hcd : sameButAddr c d = true) :
    SameButAddrs (writeCell s k c) (writeCell t k d) := by
  refine { h with cells_eq := fun j => ?_ }
  rw [readCell_writeCell hs, readCell_writeCell ht]
  split
  · exact hcd
  · exact h.cells_eq j

theorem clearCells (lo hi : Int) : SameButAddrs (clearCells s lo hi) (clearCells t lo hi) := by
  refine { h with cells_eq := fun j => ?_ }
  rw [readCell_clearCells, readCell_clearCells]
  split
  · rfl
  · exact h.cells_eq j

theorem takeEvent (st : Status) (f : FaultRecord) : SameButAddrs (takeEvent s st f) (takeEvent t st f) := by
  rw [takeEvent_eq, takeEvent_eq, h.status_eq]
  split
  · exact { h with status_eq := rfl, fault_eq := rfl }
  · exact h

/-! ## The end of a cycle -/

theorem checkSp (pc0 : Int) : SameButAddrs (checkSp s pc0) (checkSp t pc0) := by
  unfold Machine.checkSp
  rw [h.spMod_eq, h.params_eq, h.sp_eq]
  split
  · split
    · exact h.takeEvent ..
    · exact h
  · exact h

theorem retireNext (pc0 : Int) : SameButAddrs (retireNext s pc0) (retireNext t pc0) := by
  apply checkSp
  unfold updatePcNext
  rw [h.pc_eq]
  split
  · exact h.takeEvent ..
  · exact h.writeReg ..

theorem retireBranch (pc0 : Int) : SameButAddrs (retireBranch s pc0) (retireBranch t pc0) := by
  apply checkSp
  unfold updatePcBranch
  rw [h.pc_eq]
  split
  · exact h.takeEvent ..
  · exact h

/-! ## The instructions -/

theorem aluResult (rd : RegIdx) (v : Int) : SameButAddrs (aluResult rd v s) (aluResult rd v t) := by
  unfold Machine.aluResult
  rw [h.pc_eq]
  split
  · exact h.takeEvent ..
  · exact (h.writeReg rd v).retireNext _

/-- A handler that raises the same DecodeError in both. -/
theorem decodeError (c : Cause) (info : Int) :
    SameNext (.next (decodeError s c (pc s) info)) (.next (decodeError t c (pc t) info)) := by
  rw [h.pc_eq]; exact .next (h.takeEvent ..)

theorem execLdur (rd rn : RegIdx) (imm : Int) : SameNext (exec (.ldur rd rn imm) s) (exec (.ldur rd rn imm) t) := by
  simp only [exec, Machine.execLdur, h.operandIndex_eq, h.memRead_eq]
  split
  · exact h.decodeError ..
  · split
    · exact h.decodeError ..
    · rw [h.pc_eq]; exact .next ((h.writeReg ..).retireNext _)

/-- A store writes a cell of the same value in both, or fails in both with the same cause and `info`. -/
theorem memWrite_cases (hs : MemCanonical s) (ht : MemCanonical t) (k n v : Int) :
    (∃ e, memWrite s k n v = .error e ∧ memWrite t k n v = .error e) ∨
      (∃ s' t', memWrite s k n v = .ok s' ∧ memWrite t k n v = .ok t' ∧ SameButAddrs s' t') := by
  have stored := h.writeCell hs ht k.toNat (c := .data (k * n).toNat v) (d := .data (k * n).toNat v) (decide_eq_true rfl)
  unfold memWrite
  rw [if_congr (h.cellExists_iff k) rfl rfl]
  split
  · obtain ⟨hc, hd⟩ | ⟨a, b, hc, hd, -⟩ | ⟨a, b, v, hc, hd⟩ := sameButAddr_cases (h.cells_eq k.toNat) <;> rw [hc, hd]
    · exact .inr ⟨_, _, rfl, rfl, stored⟩
    · exact .inl ⟨_, rfl, rfl⟩
    · exact .inr ⟨_, _, rfl, rfl, stored⟩
  · exact .inl ⟨_, rfl, rfl⟩

theorem execStur (hs : MemCanonical s) (ht : MemCanonical t) (rd rn : RegIdx) (imm : Int) :
    SameNext (exec (.stur rd rn imm) s) (exec (.stur rd rn imm) t) := by
  simp only [exec, Machine.execStur, h.operandIndex_eq, h.readReg_eq]
  obtain ⟨e, hse, hte⟩ | ⟨s', t', hsw, htw, hsame⟩ := h.memWrite_cases hs ht (operandIndex t rn imm) (stride rn) (readReg t rd)
  · rw [hse, hte]; exact h.decodeError ..
  · rw [hsw, htw, h.pc_eq]; exact .next (hsame.retireNext _)

theorem exec (hs : MemCanonical s) (ht : MemCanonical t) (i : Instr) : SameNext (exec i s) (exec i t) := by
  cases i with
  | addi rd rn imm | subi rd rn imm =>
    simp only [Machine.exec, execAddi, execSubi, h.readReg_eq]; exact .next (h.aluResult ..)
  | add rd rn rm => simp only [Machine.exec, execAdd, h.readReg_eq]; exact .next (h.aluResult ..)
  | b imm => simp only [Machine.exec, execB, h.pc_eq]; exact .next ((h.writeReg ..).retireBranch _)
  | br rd => simp only [Machine.exec, execBr, h.readReg_eq, h.pc_eq]; exact .next ((h.writeReg ..).retireBranch _)
  | bl imm =>
    simp only [Machine.exec, execBl, clearLo, lr, h.sp_eq, h.readReg_eq, h.pc_eq]
    exact .next ((((h.clearCells ..).writeReg ..).writeReg ..).retireBranch _)
  | cbz rd imm =>
    simp only [Machine.exec, execCbz, h.readReg_eq, h.pc_eq]
    split
    · exact .next ((h.writeReg ..).retireBranch _)
    · exact .next (h.retireBranch _)
  | ldur rd rn imm => exact h.execLdur rd rn imm
  | stur rd rn imm => exact h.execStur hs ht rd rn imm

/-! ## The step -/

theorem enabled_iff : Enabled s ↔ Enabled t := by rw [Enabled, Enabled, h.phase_eq, h.status_eq]

/-- The fetched cells decode alike, and the instruction or the DecodeError is the same. -/
theorem runCell (hs : MemCanonical s) (ht : MemCanonical t) {c d : InstrCell} (hcd : c.code = d.code) :
    SameNext (runCell s c) (runCell t d) := by
  unfold Machine.runCell
  rw [hcd, h.params_eq]
  split
  · exact h.decodeError ..
  · exact h.exec hs ht _

theorem cycle (hs : MemCanonical s) (ht : MemCanonical t) : SameNext (cycle s) (cycle t) := by
  have begun : SameButAddrs (beginCycle s) (beginCycle t) := h.withSpMod false
  unfold Machine.cycle
  rw [h.pc_eq]
  split
  · exact .next (begun.takeEvent ..)
  · obtain ⟨heq, hno⟩ | ⟨c, d, hc, hd, hcd⟩ := h.fetchCell_cases (pc t)
    · rw [heq] at hno ⊢
      cases hf : fetchCell t (pc t) with
      | instr c => exact absurd hf (hno c)
      | endOfProgram => exact .next (begun.takeEvent ..)
      | error c info => exact .next (begun.takeEvent ..)
    · rw [hc, hd]
      exact (begun.latch hcd).runCell hs ht hcd

theorem step (hs : MemCanonical s) (ht : MemCanonical t) : SameNext (step s) (step t) := by
  unfold Machine.step contEvent
  rw [if_congr h.enabled_iff rfl rfl]
  split
  · exact h.cycle hs ht
  · exact .next h

end SameButAddrs

/-- Settles O37: the step keeps the relation, since each of its operations does. -/
theorem addressFieldsAreInvisible : Obligations.AddressFieldsAreInvisible := by
  intro s t s' hs ht h hstep
  obtain ⟨s'', t', hs'', ht', hsame⟩ := h.step hs ht
  cases hstep.symm.trans hs''
  exact ⟨t', ht', hsame⟩

end Sys2Proof.Machine
end

section
/-!
PROOFS of the family 'other', the cycle and the host: what a step and the observation port answer (40_fetch_decode R70, R80), the branches to themselves
(70_reset_and_hazards R172), and the idioms (30_encoding R67).
-/

namespace Sys2Proof.Machine

/-! ## Codes, steps and the observation port -/

/-- Settles O8, by evaluating the two code functions. -/
theorem statusAndCauseCodes : Obligations.StatusAndCauseCodes := by
  unfold Obligations.StatusAndCauseCodes; decide

/-- Settles O9: a pc of a cell of the array is not negative, so both divisions give its cell. -/
theorem stepRunsTheDecodedInstruction : Obligations.StepRunsTheDecodedInstruction := by
  intro s c i hphase hrun hpc hal hlo hhi hc hd
  have hdiv : Int.tdiv (pc s) 4 = pc s / 4 := Int.tdiv_eq_ediv_of_nonneg (by omega)
  rw [← hdiv] at hlo hhi hc
  exact step_of_fetches ⟨hphase, hrun⟩ hpc ⟨fetchCell_of_instr hal ⟨hlo, hhi⟩ hc, hd⟩

/-- Settles O12: `cont` tests the condition first. -/
theorem stepIsIgnoredUnlessEnabled : Obligations.StepIsIgnoredUnlessEnabled := fun _ h => step_of_not_enabled h

/-- Settles O13: every way a step can go is a next state, an instruction's too. -/
theorem everyStepAnswersANextState : Obligations.EveryStepAnswersANextState := by
  intro s
  obtain ⟨-, hs⟩ | ⟨-, -, hs⟩ | ⟨-, -, ⟨c, info, -, hs⟩ | ⟨-, hs⟩ | ⟨c, e, -, -, hs⟩ | ⟨c, i, -, -, hs⟩⟩ := step_cases s
  · exact ⟨_, hs⟩
  · exact ⟨_, hs⟩
  · exact ⟨_, hs⟩
  · exact ⟨_, hs⟩
  · exact ⟨_, hs⟩
  · obtain ⟨t, ht, -⟩ := exec_cases i (latch (beginCycle s) c)
    exact ⟨t, hs.trans ht⟩

/-- Settles O56: the snapshot is taken field by field. -/
theorem observationShowsTheState : Obligations.ObservationShowsTheState := by
  refine fun s => ⟨fun i => ?_, fun _ => rfl, rfl, rfl, rfl, rfl, rfl⟩
  simp [observe, Vector.get_eq_getElem]

/-! ## A taken CBZ to itself -/

/-- A taken CBZ with offset 0 leaves the state as it is (42_branch R104). -/
theorem exec_cbz_zero {s : State} {rd : RegIdx} (hs : InHandler s) (hfit : Fits s.params.xlen (pc s)) (hz : readReg s rd = 0) :
    exec (.cbz rd 0) s = .next s := by
  obtain ⟨-, taken, -⟩ := cbzBranchesOnZeroOnly
  have jump := taken s rd 0 hs hz
  rw [add_zero, wrap_of_fits hfit] at jump
  exact eq_next_of_jumpsTo_pc hs jump

/-! ## A BL to itself -/

/-- `s` fetches a BL whose target is its own address, from a cell that its clearing passes by, now and once SP is the stack top. -/
structure BlToItself (s : State) (c : InstrCell) (imm : Int) : Prop where
  enabled : Enabled s
  pc_ne_zero : pc s ≠ 0
  fetches : Fetches s c (.bl imm)
  target : wrap s.params.xlen (lr s + imm) = pc s
  outside : Int.tdiv (pc s) 4 < Int.tdiv (sp s) 8 ∧ Int.tdiv (pc s) 4 < 500 ∨ 500 < Int.tdiv (pc s) 4

/-- The handler of BL writes no register but the pc and SP. -/
theorem storedReg_unwound (s : State) (target : Int) {j : RegIdx} (hpc : j ≠ .PC) (hsp : j ≠ .SP) :
    storedReg (unwound s target) j = storedReg s j := by
  calc storedReg (setReg (setReg s .PC target) .SP 4000) j
      = storedReg (setReg s .PC target) j := by rw [storedReg_setReg, if_neg hsp]
    _ = storedReg s j := by rw [storedReg_setReg, if_neg hpc]

namespace BlToItself

variable {s : State} {c : InstrCell} {imm : Int} (h : BlToItself s c imm)
include h

/-- The state after one step. -/
theorem step_eq : step s = .next (unwound (latch (beginCycle s) c) (pc s)) := by
  have target : wrap (latch (beginCycle s) c).params.xlen (lr (latch (beginCycle s) c) + imm) = pc s := h.target
  rw [step_of_fetches h.enabled h.pc_ne_zero h.fetches, exec_bl_eq, target, retireBranch_unwound_of_ne_zero _ h.pc_ne_zero]

/-- The next state is on the same BL again. -/
theorem unwound : BlToItself (unwound (latch (beginCycle s) c) (pc s)) c imm := by
  obtain ⟨hfetch, hdecode⟩ := h.fetches
  obtain ⟨hal, ⟨hlo, hhi⟩, hc⟩ := (fetchCell_instr_iff ..).1 hfetch
  rw [fetchIndex_eq_tdiv] at hlo hhi hc
  have outside := h.outside
  have hlr : lr (Machine.unwound (latch (beginCycle s) c) (pc s)) = lr s := storedReg_unwound (latch (beginCycle s) c) (pc s) (by decide) (by decide)
  refine ⟨h.enabled, ?pcNotZero, ⟨?fetch, hdecode⟩, ?target, ?outside⟩
  case pcNotZero => rw [pc_unwound]; exact h.pc_ne_zero
  case target => rw [hlr, pc_unwound]; exact h.target
  case outside =>
    rw [pc_unwound, sp_unwound, show Int.tdiv 4000 8 = 500 from rfl]
    omega
  case fetch =>
    rw [pc_unwound]
    refine fetchCell_of_instr hal ⟨hlo, hhi⟩ ((read_unwoundMem (latch (beginCycle s) c) _).trans ?_)
    have clear_of_it : ¬ (Int.tdiv (sp s) 8 ≤ ((Int.tdiv (pc s) 4).toNat : Int) ∧ ((Int.tdiv (pc s) 4).toNat : Int) ≤ 500) := by omega
    exact (if_neg clear_of_it).trans hc

/-- Under every number of steps the run stays on the BL. -/
theorem run_succ (n : Nat) : ∃ t, Host.Core.run core (n + 1) s = .next t ∧ t.status = .running ∧ pc t = pc s ∧ sp t = 4000 ∧
    ∀ j, j ≠ .PC → j ≠ .SP → storedReg t j = storedReg s j := by
  induction n generalizing s with
  | zero =>
    refine ⟨_, run_succ_of_step (M := core) h.step_eq 0, h.enabled.2, pc_unwound .., sp_unwound .., fun j hpc hsp => ?_⟩
    exact storedReg_unwound (latch (beginCycle s) c) (pc s) hpc hsp
  | succ n ih =>
    obtain ⟨t, hrun, hst, hpc, hsp, hregs⟩ := ih h.unwound
    refine ⟨t, (run_succ_of_step (M := core) h.step_eq _).trans hrun, hst, hpc.trans (pc_unwound ..), hsp, fun j hj hj' => ?_⟩
    exact (hregs j hj hj').trans (storedReg_unwound (latch (beginCycle s) c) (pc s) hj hj')

end BlToItself

/-- Settles O49: the taken CBZ leaves its latched state as it is, and the BL leaves a state that is on the same BL. -/
theorem selfBranchesRunForEver : Obligations.SelfBranchesRunForEver := by
  refine ⟨fun s c rd hen hpc hfit hf hz n => ?cbz, fun s c imm hen hpc hf htarget hout n => ?bl⟩
  case cbz => exact run_of_exec_eq_self hen hpc hf (exec_cbz_zero (inHandler_latch hen hpc c) hfit hz) n
  case bl => exact BlToItself.run_succ ⟨hen, hpc, hf, htarget, hout⟩ n

/-! ## Nothing is expanded, and the idioms -/

@[simp] theorem opcode_instrOfFields (op : Opcode) (w : BitVec 32) : (instrOfFields op w).opcode = op := by cases op <;> rfl

/-- What a record decodes to has the opcode its mnemonic names. -/
theorem mnemonic_of_decodeRecord {x : Xlen} {r : InstrRecord} {i : Instr} (h : decodeRecord x r = .ok i) : r.opcode = mnemonicText i.opcode := by
  unfold decodeRecord at h
  cases hop : opcodeOfText r.opcode with
  | none => rw [hop] at h; cases h
  | some op =>
    rw [hop] at h
    obtain ⟨-, hd⟩ | ⟨j, kd, -, hd⟩ | ⟨i', hi', -, -, hd⟩ := decodeOperands_cases x op r.operands <;> cases h.symm.trans hd
    rw [hi']; exact (opcodeOfText_eq_some _ _).1 hop

/-- Settles O50: each level's decoder answers the opcode of its text, `BR XZR` is the halt of O23, and the two ADDI idioms are O18 with a summand of 0. -/
theorem idiomsHaltLoadAndCopy : Obligations.IdiomsHaltLoadAndCopy := by
  obtain ⟨-, -, brXzr, -, -⟩ := brJumpsToTheRegister
  obtain ⟨-, addi, -⟩ := addiAddsTheConstant
  refine ⟨fun w i h => ?word, fun x r i h => mnemonic_of_decodeRecord h, fun s c hen hpc hf => ?halt, fun s rd imm hs => ?load,
    fun s rd rn hs => ?copy, fun x v h => wrap_of_fits h⟩
  case word =>
    obtain ⟨op, hop, -, rfl⟩ := decodeWord_eq_ok h
    rw [opcode_instrOfFields]; exact hop.symm
  case halt => exact (step_of_fetches hen hpc hf).trans (brXzr _ (inHandler_latch hen hpc c))
  case load =>
    have hzero : readReg s .XZR + imm = imm := zero_add imm
    have loaded := addi s rd .XZR imm hs
    rwa [hzero] at loaded
  case copy => exact add_zero (readReg s rn) ▸ addi s rd rn 0 hs

end Sys2Proof.Machine
end
